-- ==== Sys2Proof/Word.lean ====
section
/-! DEFINITION. The machine's word types (R7, R20, R26, R50). -/

namespace Sys2Proof

/-- A byte: every register, memory cell, operand and output value (R7, R20, R33). Unsigned. -/
abbrev Byte := BitVec 8

/-- The program counter's word: 9 bits, so that it holds 0 to 256 (R26). The values 257 to 511 are representable and no
run reaches them (log 6). -/
abbrev PcWord := BitVec 9

/-- The number of registers (R5: `NREG = 8`). -/
abbrev numRegs : Nat := 8

/-- The number of memory cells (R5: `MEM_SIZE = 256`). -/
abbrev memSize : Nat := 256

end Sys2Proof
end

