-- ==== Sys2Proof/Config.lean ====
section
/-! DEFINITION. The implementation parameters of R6, as one record: what a build fixes and the document leaves open. -/

namespace Sys2Proof

/-- The named arguments of the model (R6). Every claim that does not name a value holds for every `Config`. -/
structure Config where
  /-- `sp_reset`: the stack pointer's reset value (D3). -/
  spReset : Byte
  /-- `gpr_reset`: the reset values of `x[0]` to `x[6]` (D4). -/
  gprReset : Vector Byte 7
  /-- `ext_alu`: whether SUB, AND, OR, XOR and NOT are in the opcode map (R79, D2). -/
  extAlu : Bool
  /-- `fault_exit_code`: the host's exit code for a faulted run (R210, D20). -/
  faultExitCode : Nat
  /-- R6: the exit code of a faulted run is "other than 0". -/
  faultExitCode_ne_zero : faultExitCode ≠ 0
deriving DecidableEq, Repr

/-- The reference configuration of R6: `sp_reset = 0xF4` (PRESUMED, log 3), `gpr_reset` all zero (DESIGN CHOICE, log 4),
`ext_alu = true` (DESIGN CHOICE, log 2), `fault_exit_code = 1` (DESIGN CHOICE, log 19). -/
def Config.reference : Config where
  spReset := 0xF4
  gprReset := Vector.replicate 7 0x00
  extAlu := true
  faultExitCode := 1
  faultExitCode_ne_zero := by decide

end Sys2Proof
end

