-- ==== Sys2Proof/Syntax.lean ====
section
/-! DEFINITION. The instruction set as syntax: one constructor per row of spec/opcode_table.json (R78), the rows' names,
and the four formats (R73). -/

namespace Sys2Proof

/-- An instruction with its operand bytes as they stand in memory. A register operand is the WHOLE operand byte (R76): a
value of 8 or more is an instruction whose meaning takes the OutOfBounds(register) fault (R203), so it has to be syntax. -/
inductive Instr where
  /-- NOP (R100). -/
  | nop
  /-- HLT (R101). -/
  | hlt
  /-- LDI r, imm (R102). -/
  | ldi (r imm : Byte)
  /-- PRN r (R103). -/
  | prn (r : Byte)
  /-- PUSH r (R123). -/
  | push (r : Byte)
  /-- POP r (R124). -/
  | pop (r : Byte)
  /-- ADD rA, rB (R142). -/
  | add (rA rB : Byte)
  /-- MUL rA, rB (R143). -/
  | mul (rA rB : Byte)
  /-- CMP rA, rB (R144). -/
  | cmp (rA rB : Byte)
  /-- CALL r (R171). -/
  | call (r : Byte)
  /-- RET (R172). -/
  | ret
  /-- JMP r (R173). -/
  | jmp (r : Byte)
  /-- JEQ r (R174). -/
  | jeq (r : Byte)
  /-- JNE r (R175). -/
  | jne (r : Byte)
  /-- SUB rA, rB, extension (R145). -/
  | sub (rA rB : Byte)
  /-- AND rA, rB, extension (R146). -/
  | and (rA rB : Byte)
  /-- OR rA, rB, extension (R147). -/
  | or (rA rB : Byte)
  /-- XOR rA, rB, extension (R148). -/
  | xor (rA rB : Byte)
  /-- NOT r, extension (R149). -/
  | not (r : Byte)
deriving DecidableEq, Repr

/-- The names of the opcode map's rows (R78), in the map's order. -/
inductive OpName where
  | nop | hlt | ldi | prn | push | pop | add | mul | cmp | call | ret | jmp | jeq | jne | sub | and | or | xor | not
deriving DecidableEq, Repr

/-- The four instruction formats (R73). -/
inductive Format where
  /-- Opcode only. -/
  | f0
  /-- Opcode and one register operand. -/
  | f1
  /-- Opcode and two register operands. -/
  | f2r
  /-- Opcode, a register operand and an 8-bit immediate. -/
  | f2i
deriving DecidableEq, Repr

/-- The row of the opcode map an instruction belongs to. -/
def Instr.name : Instr → OpName
  | .nop => .nop
  | .hlt => .hlt
  | .ldi _ _ => .ldi
  | .prn _ => .prn
  | .push _ => .push
  | .pop _ => .pop
  | .add _ _ => .add
  | .mul _ _ => .mul
  | .cmp _ _ => .cmp
  | .call _ => .call
  | .ret => .ret
  | .jmp _ => .jmp
  | .jeq _ => .jeq
  | .jne _ => .jne
  | .sub _ _ => .sub
  | .and _ _ => .and
  | .or _ _ => .or
  | .xor _ _ => .xor
  | .not _ => .not

/-- The operand bytes in memory order, byte 1 then byte 2 (R73). -/
def Instr.operandBytes : Instr → List Byte
  | .nop | .hlt | .ret => []
  | .prn r | .push r | .pop r | .call r | .jmp r | .jeq r | .jne r | .not r => [r]
  | .ldi r imm => [r, imm]
  | .add rA rB | .mul rA rB | .cmp rA rB | .sub rA rB | .and rA rB | .or rA rB | .xor rA rB => [rA, rB]

/-- The register-index operand bytes, in byte order: `rA` before `rB` (R76). LDI's second byte is an immediate (R75). -/
def Instr.regOperands : Instr → List Byte
  | .nop | .hlt | .ret => []
  | .ldi r _ => [r]
  | .prn r | .push r | .pop r | .call r | .jmp r | .jeq r | .jne r | .not r => [r]
  | .add rA rB | .mul rA rB | .cmp rA rB | .sub rA rB | .and rA rB | .or rA rB | .xor rA rB => [rA, rB]

/-- The row's mnemonic (R78). -/
def OpName.mnemonic : OpName → String
  | .nop => "NOP"
  | .hlt => "HLT"
  | .ldi => "LDI"
  | .prn => "PRN"
  | .push => "PUSH"
  | .pop => "POP"
  | .add => "ADD"
  | .mul => "MUL"
  | .cmp => "CMP"
  | .call => "CALL"
  | .ret => "RET"
  | .jmp => "JMP"
  | .jeq => "JEQ"
  | .jne => "JNE"
  | .sub => "SUB"
  | .and => "AND"
  | .or => "OR"
  | .xor => "XOR"
  | .not => "NOT"

/-- The assembly text of one instruction (R87, log 28): `MNEMONIC`, `MNEMONIC Rn`, `MNEMONIC Rn,Rm` or `LDI Rn,imm`,
numbers in decimal. -/
def Instr.asm (i : Instr) : String :=
  let regText (r : Byte) : String := "R" ++ toString r.toNat
  match i with
  | .nop | .hlt | .ret => i.name.mnemonic
  | .prn r | .push r | .pop r | .call r | .jmp r | .jeq r | .jne r | .not r => i.name.mnemonic ++ " " ++ regText r
  | .ldi r imm => i.name.mnemonic ++ " " ++ regText r ++ "," ++ toString imm.toNat
  | .add rA rB | .mul rA rB | .cmp rA rB | .sub rA rB | .and rA rB | .or rA rB | .xor rA rB =>
    i.name.mnemonic ++ " " ++ regText rA ++ "," ++ regText rB

end Sys2Proof
end

