-- ==== Sys2Proof/WellFormed.lean ====
section
/-! DEFINITION. Which instructions are well formed: every register operand names a register (R76), and the row is in the
build's opcode map (R79). An ill-formed register operand still decodes and its meaning takes the fault of R203. -/

namespace Sys2Proof

/-- A register-index byte in `[0, 8)` (R25, R76). -/
def isRegIndex (b : Byte) : Bool := b.toNat < numRegs

/-- The extension rows, present only with `ext_alu` (R79). -/
def OpName.isExtension : OpName → Bool
  | .sub | .and | .or | .xor | .not => true
  | .nop | .hlt | .ldi | .prn | .push | .pop | .add | .mul | .cmp | .call | .ret | .jmp | .jeq | .jne => false

/-- The row is in the active opcode map of the build (R78, R79). -/
def OpName.inMap (c : Config) (m : OpName) : Bool := c.extAlu || !m.isExtension

/-- A well-formed instruction of the build `c`: in the active map, every register operand below 8. -/
def Instr.wellFormed (c : Config) (i : Instr) : Bool := i.name.inMap c && i.regOperands.all isRegIndex

end Sys2Proof
end

