-- ==== Sys2Proof/Decode.lean ====
section
/-! DEFINITION. The decoder, total on any bytes and rejecting by name (R77 to R86), and after it the encoder. -/

namespace Sys2Proof

/-- Why bytes are not an instruction. The step turns each into the fault the spec gives it (R81, R202). -/
inductive Reject where
  /-- There is no opcode byte: the fetch itself is out of memory (R81 step 1). -/
  | noOpcode
  /-- The opcode byte is not in the active map (R83). -/
  | illegalOpcode (op : Byte)
  /-- Operand byte `k` (1 or 2) is outside memory (R74). -/
  | missingOperand (op : Byte) (k : Nat)
deriving DecidableEq, Repr

/-- The opcode byte of each row (R78). The values are the LS-8's, from general knowledge (D1): PRESUMED, log 1. -/
def OpName.opcode : OpName → Byte
  | .nop => 0x00
  | .hlt => 0x01
  | .ldi => 0x82
  | .prn => 0x47
  | .push => 0x45
  | .pop => 0x46
  | .add => 0xA0
  | .mul => 0xA2
  | .cmp => 0xA7
  | .call => 0x50
  | .ret => 0x11
  | .jmp => 0x54
  | .jeq => 0x55
  | .jne => 0x56
  | .sub => 0xA1
  | .and => 0xA8
  | .or => 0xAA
  | .xor => 0xAB
  | .not => 0x69

/-- The format of each row (R73). -/
def OpName.format : OpName → Format
  | .nop | .hlt | .ret => .f0
  | .prn | .push | .pop | .call | .jmp | .jeq | .jne | .not => .f1
  | .add | .mul | .cmp | .sub | .and | .or | .xor => .f2r
  | .ldi => .f2i

/-- The number of operand bytes of a format (R73). -/
def Format.operandCount : Format → Nat
  | .f0 => 0
  | .f1 => 1
  | .f2r => 2
  | .f2i => 2

/-- The opcode map's rows in the document's order (R78). -/
def opRows : List OpName :=
  [.nop, .hlt, .ldi, .prn, .push, .pop, .add, .mul, .cmp, .call, .ret, .jmp, .jeq, .jne] ++
    [.sub, .and, .or, .xor, .not]

/-- Look a whole opcode byte up in the active map: an exact match (R77), over the rows the build has (R79). -/
def lookup (c : Config) (op : Byte) : Option OpName :=
  opRows.find? fun m => m.opcode == op && m.inMap c

/-- The operand count an opcode byte's top two bits state, `op[7:6]` (R71). -/
def operandCountBits (op : Byte) : Nat := (op.extractLsb' 6 2).toNat

/-- The width in bytes of an instruction with this opcode, `op[7:6] + 1` (R72). -/
def opcodeWidth (op : Byte) : Nat := operandCountBits op + 1

/-- The instruction of a row, from its operand bytes; a row uses as many as its format has. -/
def OpName.build (m : OpName) (a b : Byte) : Instr :=
  match m with
  | .nop => .nop
  | .hlt => .hlt
  | .ldi => .ldi a b
  | .prn => .prn a
  | .push => .push a
  | .pop => .pop a
  | .add => .add a b
  | .mul => .mul a b
  | .cmp => .cmp a b
  | .call => .call a
  | .ret => .ret
  | .jmp => .jmp a
  | .jeq => .jeq a
  | .jne => .jne a
  | .sub => .sub a b
  | .and => .and a b
  | .or => .or a b
  | .xor => .xor a b
  | .not => .not a

/-- Take a row's operand bytes from the bytes after its opcode (R74): the first missing one is named. -/
def decodeOperands (m : OpName) (rest : List Byte) : Except Reject (Instr × List Byte) :=
  match m.format, rest with
  | .f0, rest => .ok (m.build 0 0, rest)
  | .f1, a :: rest => .ok (m.build a 0, rest)
  | .f1, [] => .error (.missingOperand m.opcode 1)
  | .f2r, a :: b :: rest => .ok (m.build a b, rest)
  | .f2r, [_] => .error (.missingOperand m.opcode 2)
  | .f2r, [] => .error (.missingOperand m.opcode 1)
  | .f2i, a :: b :: rest => .ok (m.build a b, rest)
  | .f2i, [_] => .error (.missingOperand m.opcode 2)
  | .f2i, [] => .error (.missingOperand m.opcode 1)

/-- Decode the instruction at the head of a byte list, with the bytes after it: opcode, lookup, operands, in the order of
R81 steps 1 to 3. Operand bytes are not looked at to find the instruction (R77). -/
def decode (c : Config) (bytes : List Byte) : Except Reject (Instr × List Byte) :=
  match bytes with
  | [] => .error .noOpcode
  | op :: rest =>
    match lookup c op with
    | none => .error (.illegalOpcode op)
    | some m => decodeOperands m rest

/-- The bytes of a table word: bit 0 is the least significant bit of the first byte, later bytes count on from it, and the
bits above `nbits` are 0. Three bytes: the longest instruction (R5). -/
def tableBytes (nbits w : Nat) : List Byte :=
  let v := w % 2 ^ nbits
  [BitVec.ofNat 8 v, BitVec.ofNat 8 (v / 256), BitVec.ofNat 8 (v / 65536)]

/-- The instruction the decoder reads from a table word, in the reference configuration. -/
def decodeTableWord (nbits w : Nat) : Option Instr :=
  match decode Config.reference (tableBytes nbits w) with
  | .ok (i, _) => some i
  | .error _ => none

/-- The bytes of an instruction (R70, R73, R78): its opcode and then its operand bytes. -/
def encode (i : Instr) : List Byte := i.name.opcode :: i.operandBytes

/-- A program image: encodings laid end to end from address 0 (R88). -/
def encodeProgram (is : List Instr) : List Byte := is.flatMap encode

end Sys2Proof
end

