-- ==== Sys2Proof/Machine/State.lean ====
section
/-! DEFINITION. The state of the core (10_state.md), as plain data, its reset value (R37, R230), and the reasons the host
interface can stop. -/

namespace Sys2Proof.Machine

/-- The three condition flags (R29): Booleans, not a byte (D26, log 27). -/
structure Flags where
  /-- `E`, Equal. -/
  e : Bool
  /-- `L`, LessThan. -/
  l : Bool
  /-- `G`, GreaterThan. -/
  g : Bool
deriving DecidableEq, Repr

/-- The causes of a fault of the core (R200, R205). -/
inductive Cause where
  /-- The opcode byte is not in the active map (R201). -/
  | decodeError
  /-- An address outside `[0, 256)` (R202). -/
  | outOfBoundsMemory
  /-- A register-index operand of 8 or more (R203). -/
  | outOfBoundsRegister
  /-- Reserved: no opcode can raise it (R150, R204, log 29). -/
  | unsupportedAluOperation
deriving DecidableEq, Repr

/-- The fault record (R32). -/
structure FaultRecord where
  /-- The cause (R205). -/
  cause : Cause
  /-- The value of `pc` when the faulting instruction was fetched. -/
  pc : PcWord
  /-- The byte at that pc; none when the opcode fetch itself faulted. -/
  opcode : Option Byte
  /-- The faulting address or register index; none for DecodeError. An address may be -1 (R121). -/
  info : Option Int
deriving DecidableEq, Repr

/-- The run status (R31). -/
inductive Status where
  /-- The loop runs. -/
  | running
  /-- HLT was executed. -/
  | halted
  /-- A check raised; the record says which. -/
  | faulted (record : FaultRecord)
deriving DecidableEq, Repr

/-- Memory: the cells that do not hold what an unlisted address reads as, addresses strictly rising (`Memory.wf`). -/
abbrev Memory := List Host.Cell

/-- Every piece of state the spec gives the core (R20 to R37). -/
structure State where
  /-- `x[0]` to `x[7]` (R20); `x[7]` is SP (R21). -/
  regs : Vector Byte 8
  /-- `pc` (R26). -/
  pc : PcWord
  /-- `E`, `L`, `G` (R29). -/
  flags : Flags
  /-- The run status with the fault record (R31, R32). -/
  status : Status
  /-- `M` (R33). -/
  mem : Memory
  /-- `out`, the bytes PRN has emitted, oldest first (R36, R42). -/
  out : List Byte
deriving DecidableEq, Repr

/-- Why `step` gives no next state: a terminal state has no successor (R236). Not a fault of the core, which is a NEXT
state with `status = faulted` (R206). -/
inductive Fault where
  /-- `step` of a halted core (R217, R236). Safe: the spec gives the state no successor. -/
  | haltedNoSuccessor
  /-- `step` of a faulted core (R207, R236). Safe: the spec gives the state no successor. -/
  | faultedNoSuccessor
deriving DecidableEq, Repr

/-- Why an instruction has no meaning. No arm of `exec` uses it: every row of the opcode table is modelled. -/
inductive Refusal where
  /-- The instruction of this mnemonic has no meaning yet. Raised by no definition of this model; safe. -/
  | notModelled (mnemonic : String)
deriving DecidableEq, Repr

/-- The outcome of one instruction or one step. -/
abbrev Result := Host.Outcome State Fault Refusal

/-- The reset state of a build (R37, R230): `x[0..6] = gpr_reset`, `x[7] = sp_reset`, `pc = 0`, flags false, Running, every
memory cell 0 (nothing listed), nothing printed. -/
def State.resetWith (c : Config) : State where
  regs := c.gprReset.push c.spReset
  pc := 0
  flags := ⟨false, false, false⟩
  status := .running
  mem := []
  out := []

/-- The reset state of the reference configuration (R6; logs 3, 4, 5). -/
def State.reset : State := State.resetWith Config.reference

end Sys2Proof.Machine
end

