-- ==== Sys2Proof/Machine/Ops.lean ====
section
/-! DEFINITION. The named operations over memory, registers, pc, output and status (R8, R9), and fault entry (R206). There
is no return from a fault: R209. -/

namespace Sys2Proof.Machine

/-! ## Memory (20_memory.md) -/

/-- What an unlisted cell reads as: memory is zero at reset (R33, R37). -/
def unlistedByte : Byte := 0x00

/-- The canonical form: addresses strictly rising, each in `[0, 256)` (R50), no cell listed that reads as unlisted. -/
abbrev Memory.wf (m : Memory) : Prop :=
  m.Pairwise (fun c d => c.1 < d.1) ∧ ∀ c ∈ m, c.1 < memSize ∧ c.2 ≠ unlistedByte

/-- The byte in cell `a`. -/
def Memory.read : Memory → Nat → Byte
  | [], _ => unlistedByte
  | (k, v) :: rest, a => if k = a then v else Memory.read rest a

/-- Store `v` in cell `a`, keeping the canonical form. -/
def Memory.write : Memory → Nat → Byte → Memory
  | [], a, v => if v = unlistedByte then [] else [(a, v)]
  | (k, w) :: rest, a, v =>
    if a < k then (if v = unlistedByte then (k, w) :: rest else (a, v) :: (k, w) :: rest)
    else if a = k then (if v = unlistedByte then rest else (a, v) :: rest)
    else (k, w) :: Memory.write rest a v

/-- A check that fires: `raise C(info)` of the pseudocode (R8). -/
structure Raise where
  /-- The cause (R205). -/
  cause : Cause
  /-- The address or register index (R32). -/
  info : Option Int
deriving DecidableEq, Repr

/-- An address is in `[0, 256)` (R50). A whole number that is no address may be negative (R121). -/
def addressOk : Int → Bool
  | .ofNat a => decide (a < memSize)
  | .negSucc _ => false

/-- `MemRead(a, 1)` (R51). -/
def memRead (m : Memory) (a : Int) : Except Raise Byte :=
  if addressOk a then .ok (m.read a.toNat) else .error ⟨.outOfBoundsMemory, some a⟩

/-- `MemWrite(a, 1, v)` (R52). -/
def memWrite (m : Memory) (a : Int) (v : Byte) : Except Raise Memory :=
  if addressOk a then .ok (m.write a.toNat v) else .error ⟨.outOfBoundsMemory, some a⟩

/-! ## Registers (R20 to R25) -/

/-- SP is `x[7]` (R21). -/
def spIndex : Fin 8 := 7

/-- `x[i]` (R8). -/
def State.reg (s : State) (i : Fin 8) : Byte := s.regs.get i

/-- `x[i] <- v` (R8). No register is hardwired (R22). -/
def State.setReg (s : State) (i : Fin 8) (v : Byte) : State := { s with regs := s.regs.set i.val v i.isLt }

/-- `SP` (R8). -/
def State.sp (s : State) : Byte := s.reg spIndex

/-- The operand byte that names register `i`. -/
def regByte (i : Fin 8) : Byte := BitVec.ofNat 8 i.val

/-! ## pc (R26, R27) -/

/-- `pc <- p + w`: the sequential advance by the instruction's width (R27, R72). Nine bits, so 256 does not wrap. -/
def State.advance (s : State) (w : Nat) : State := { s with pc := s.pc + BitVec.ofNat 9 w }

/-- `pc <- t` for a register value or popped byte `t` (R170). -/
def State.jump (s : State) (t : Byte) : State := { s with pc := t.setWidth 9 }

/-! ## Output, flags, status -/

/-- `emit(v)`: append `v` to `out` (R8, R42). -/
def State.emit (s : State) (v : Byte) : State := { s with out := s.out ++ [v] }

/-- Write all three flags (R29). -/
def State.setFlags (s : State) (f : Flags) : State := { s with flags := f }

/-- `status <- Halted` (R101). -/
def State.halt (s : State) : State := { s with status := .halted }

/-! ## Stack primitives (R120 to R122) -/

/-- The SP update of PUSH and CALL: SP - 1 on whole numbers. When it would be below 0, that is, when SP is 0, it raises and
does not wrap (R121). -/
def State.decSp (s : State) : Except Raise State :=
  if s.sp.toNat = 0 then .error ⟨.outOfBoundsMemory, some (-1)⟩
  else .ok (s.setReg spIndex (BitVec.ofNat 8 (s.sp.toNat - 1)))

/-- The SP update of POP and RET: SP + 1 on whole numbers. When it would be 256 it raises and does not wrap (R122). -/
def State.incSp (s : State) : Except Raise State :=
  if 255 < s.sp.toNat + 1 then .error ⟨.outOfBoundsMemory, some 256⟩
  else .ok (s.setReg spIndex (BitVec.ofNat 8 (s.sp.toNat + 1)))

/-- `MemWrite(x[7], 1, v)`. -/
def State.storeAtSp (s : State) (v : Byte) : Except Raise State := do
  let m ← memWrite s.mem (s.sp.toNat : Int) v
  return { s with mem := m }

/-- `MemRead(x[7], 1)`. -/
def State.loadAtSp (s : State) : Except Raise Byte := memRead s.mem (s.sp.toNat : Int)

/-! ## Fault entry (R206) -/

/-- Fault entry: record cause, pc, opcode and info, and change nothing else (R206, D8, log 8). -/
def State.enterFault (s : State) (opcode : Option Byte) (r : Raise) : State :=
  { s with status := .faulted ⟨r.cause, s.pc, opcode, r.info⟩ }

/-- The end of an instruction's pseudocode: its new state, or, when a check raised, fault entry in the state BEFORE the
instruction (R9, R206). -/
def complete (m : OpName) (s : State) (r : Except Raise State) : Result :=
  match r with
  | .ok t => .next t
  | .error e => .next (s.enterFault (some m.opcode) e)

end Sys2Proof.Machine
end

