-- ==== Sys2Proof/Machine/Operands.lean ====
section
/-! DEFINITION. Operand forms (R73 to R76): fetching an instruction's bytes, and the register-index check. -/

namespace Sys2Proof.Machine

/-- A register operand byte as a register index, or the OutOfBounds(register) raise (R25, R76). The whole byte is compared:
it is not masked (D16, log 16). -/
def regIndex (r : Byte) : Except Raise (Fin 8) :=
  if h : r.toNat < 8 then .ok ⟨r.toNat, h⟩ else .error ⟨.outOfBoundsRegister, some (r.toNat : Int)⟩

/-- The memory bytes from address `a` upward, at most `n`, ending before the first one outside memory (R74). -/
def bytesFrom (m : Memory) : Nat → Nat → List Byte
  | 0, _ => []
  | n + 1, a =>
    match memRead m (a : Int) with
    | .ok b => b :: bytesFrom m n (a + 1)
    | .error _ => []

/-- The bytes at `pc` that an instruction can occupy: at most three (R5, R74). A read has no side effect (R53), so reading
three where fewer are used shows nowhere (log 26). -/
def fetchBytes (s : State) : List Byte := bytesFrom s.mem 3 s.pc.toNat

/-- The fault a rejected fetch takes, with the opcode it records (R81, R202, R206). -/
def rejectRaise (p : Nat) : Reject → Option Byte × Raise
  | .noOpcode => (none, ⟨.outOfBoundsMemory, some (p : Int)⟩)
  | .illegalOpcode op => (some op, ⟨.decodeError, none⟩)
  | .missingOperand op k => (some op, ⟨.outOfBoundsMemory, some ((p : Int) + k)⟩)

/-- Fetch and decode the instruction at `pc` (R81 steps 1 to 3), or the fault of the first check that fires (R208). -/
def fetchInstr (c : Config) (s : State) : Except (Option Byte × Raise) Instr :=
  match decode c (fetchBytes s) with
  | .ok (i, _) => .ok i
  | .error e => .error (rejectRaise s.pc.toNat e)

/-- Store one byte; an address outside memory takes nothing. -/
def storeByte (m : Memory) (a : Nat) (b : Byte) : Memory :=
  match memWrite m (a : Int) b with
  | .ok m' => m'
  | .error _ => m

/-- Store bytes at consecutive addresses from `a` upward. -/
def storeBytes (m : Memory) (a : Nat) : List Byte → Memory
  | [] => m
  | b :: rest => storeBytes (storeByte m a b) (a + 1) rest

end Sys2Proof.Machine
end

