-- ==== Sys2Proof/Machine/Flags.lean ====
section
/-! DEFINITION. The flag computation (R29, R144), the only one of this ISA, and the branch condition (R174, R175). -/

namespace Sys2Proof.Machine

/-- The flags CMP writes: unsigned comparison, all three every time (R144). -/
def compareFlags (a b : Byte) : Flags where
  e := a.toNat == b.toNat
  l := decide (a.toNat < b.toNat)
  g := decide (a.toNat > b.toNat)

/-- The condition JEQ and JNE read: `E` alone (R29). -/
def State.equalFlag (s : State) : Bool := s.flags.e

end Sys2Proof.Machine
end

