-- ==== Sys2Proof/Machine/Alu.lean ====
section
/-! DEFINITION. ALU instructions: ADD, MUL, CMP and the extension SUB, AND, OR, XOR, NOT (42_alu.md). -/

namespace Sys2Proof.Machine

/-- `wrap8(n) = n mod 256` for a whole number of either sign (R8). -/
def wrap8 (n : Int) : Byte := BitVec.ofInt 8 n

/-- The sum modulo 256 (R141, R142). -/
def aluAdd (a b : Byte) : Byte := wrap8 ((a.toNat : Int) + b.toNat)

/-- The product modulo 256 (R141, R143). -/
def aluMul (a b : Byte) : Byte := wrap8 ((a.toNat : Int) * b.toNat)

/-- The difference modulo 256 (R141, R145). -/
def aluSub (a b : Byte) : Byte := wrap8 ((a.toNat : Int) - b.toNat)

/-- Bitwise AND (R8, R146). -/
def aluAnd (a b : Byte) : Byte := a &&& b

/-- Bitwise OR (R8, R147). -/
def aluOr (a b : Byte) : Byte := a ||| b

/-- Bitwise exclusive OR (R8, R148). -/
def aluXor (a b : Byte) : Byte := a ^^^ b

/-- `255 - v`, the bitwise complement (R8, R149). -/
def aluNot (a : Byte) : Byte := wrap8 (255 - (a.toNat : Int))

/-- The shared two-register ALU form (R140): both operands checked `rA` first (R76) and read before the write (R151), the
result to `x[rA]`, pc + 3. -/
def aluBinary (m : OpName) (f : Byte → Byte → Byte) (rA rB : Byte) (s : State) : Result :=
  complete m s do
    let a ← regIndex rA
    let b ← regIndex rB
    return (s.setReg a (f (s.reg a) (s.reg b))).advance 3

/-- ADD rA, rB (R142). -/
def execAdd (rA rB : Byte) (s : State) : Result := aluBinary .add aluAdd rA rB s

/-- MUL rA, rB (R143). -/
def execMul (rA rB : Byte) (s : State) : Result := aluBinary .mul aluMul rA rB s

/-- CMP rA, rB (R144): the flags only. -/
def execCmp (rA rB : Byte) (s : State) : Result :=
  complete .cmp s do
    let a ← regIndex rA
    let b ← regIndex rB
    return (s.setFlags (compareFlags (s.reg a) (s.reg b))).advance 3

/-- SUB rA, rB (R145). -/
def execSub (rA rB : Byte) (s : State) : Result := aluBinary .sub aluSub rA rB s

/-- AND rA, rB (R146). -/
def execAnd (rA rB : Byte) (s : State) : Result := aluBinary .and aluAnd rA rB s

/-- OR rA, rB (R147). -/
def execOr (rA rB : Byte) (s : State) : Result := aluBinary .or aluOr rA rB s

/-- XOR rA, rB (R148). -/
def execXor (rA rB : Byte) (s : State) : Result := aluBinary .xor aluXor rA rB s

/-- NOT r (R149). -/
def execNot (r : Byte) (s : State) : Result :=
  complete .not s do
    let i ← regIndex r
    return (s.setReg i (aluNot (s.reg i))).advance 2

end Sys2Proof.Machine
end

