-- ==== Sys2Proof/Machine/Control.lean ====
section
/-! DEFINITION. Control-transfer instructions: CALL, RET, JMP, JEQ, JNE (43_control_transfer.md). Every target is a byte
(R170); nothing checks that it starts an instruction (R177). -/

namespace Sys2Proof.Machine

/-- CALL's return address `p + 2` as a byte, or the raise when it is 256 and has no cell (R171, D13, log 13). -/
def returnAddress (s : State) : Except Raise Byte :=
  if 255 < s.pc.toNat + 2 then .error ⟨.outOfBoundsMemory, some 256⟩ else .ok (BitVec.ofNat 8 (s.pc.toNat + 2))

/-- CALL r (R171): return address, push bound, push, and then `pc := x[r]`, read after the push. -/
def execCall (r : Byte) (s : State) : Result :=
  complete .call s do
    let i ← regIndex r
    let ret ← returnAddress s
    let s₁ ← s.decSp
    let s₂ ← s₁.storeAtSp ret
    return s₂.jump (s₂.reg i)

/-- RET (R172). -/
def execRet (s : State) : Result :=
  complete .ret s do
    let v ← s.loadAtSp
    let s₁ ← s.incSp
    return s₁.jump v

/-- JMP r (R173). -/
def execJmp (r : Byte) (s : State) : Result :=
  complete .jmp s do
    let i ← regIndex r
    return s.jump (s.reg i)

/-- JEQ r (R174). The register check applies whether or not the jump is taken (D9, log 9). -/
def execJeq (r : Byte) (s : State) : Result :=
  complete .jeq s do
    let i ← regIndex r
    return if s.equalFlag then s.jump (s.reg i) else s.advance 2

/-- JNE r (R175). -/
def execJne (r : Byte) (s : State) : Result :=
  complete .jne s do
    let i ← regIndex r
    return if s.equalFlag then s.advance 2 else s.jump (s.reg i)

end Sys2Proof.Machine
end

