-- ==== Sys2Proof/Machine/Stack.lean ====
section
/-! DEFINITION. Stack instructions: PUSH, POP (41_stack.md). Steps in the document's order, reads after writes seeing the
new value (R9, D12, log 12). -/

namespace Sys2Proof.Machine

/-- PUSH r (R123): SP - 1, then store `x[r]`, read after the SP write. -/
def execPush (r : Byte) (s : State) : Result :=
  complete .push s do
    let i ← regIndex r
    let s₁ ← s.decSp
    let s₂ ← s₁.storeAtSp (s₁.reg i)
    return s₂.advance 2

/-- POP r (R124): `x[r] := M[SP]`, then SP + 1, which for `r = 7` is one more than the popped value. -/
def execPop (r : Byte) (s : State) : Result :=
  complete .pop s do
    let i ← regIndex r
    let v ← s.loadAtSp
    let s₁ ← (s.setReg i v).incSp
    return s₁.advance 2

end Sys2Proof.Machine
end

