-- ==== Sys2Proof/Machine/System.lean ====
section
/-! DEFINITION. System and data-movement instructions: NOP, HLT, LDI, PRN (40_system_and_data.md). -/

namespace Sys2Proof.Machine

/-- NOP (R100). -/
def execNop (s : State) : Result := complete .nop s (.ok (s.advance 1))

/-- HLT (R101): `pc` stays at the instruction (D7, log 7). -/
def execHlt (s : State) : Result := complete .hlt s (.ok s.halt)

/-- LDI r, imm (R102). -/
def execLdi (r imm : Byte) (s : State) : Result :=
  complete .ldi s do
    let i ← regIndex r
    return (s.setReg i imm).advance 3

/-- PRN r (R103). -/
def execPrn (r : Byte) (s : State) : Result :=
  complete .prn s do
    let i ← regIndex r
    return (s.emit (s.reg i)).advance 2

end Sys2Proof.Machine
end

