-- ==== Sys2Proof/Machine/Dispatch.lean ====
section
/-! DEFINITION. The dispatcher (R77, R82): one arm per constructor of `Instr`; it computes no pc value itself. -/

namespace Sys2Proof.Machine

-- The effect of one decoded instruction; R81 steps 4 and 5.
def exec (i : Instr) (s : State) : Host.Outcome State Fault Refusal :=
  match i with
  | .nop => Sys2Proof.Machine.execNop s
  | .hlt => Sys2Proof.Machine.execHlt s
  | .ldi r imm => Sys2Proof.Machine.execLdi r imm s
  | .prn r => Sys2Proof.Machine.execPrn r s
  | .push r => Sys2Proof.Machine.execPush r s
  | .pop r => Sys2Proof.Machine.execPop r s
  | .add rA rB => Sys2Proof.Machine.execAdd rA rB s
  | .mul rA rB => Sys2Proof.Machine.execMul rA rB s
  | .cmp rA rB => Sys2Proof.Machine.execCmp rA rB s
  | .call r => Sys2Proof.Machine.execCall r s
  | .ret => Sys2Proof.Machine.execRet s
  | .jmp r => Sys2Proof.Machine.execJmp r s
  | .jeq r => Sys2Proof.Machine.execJeq r s
  | .jne r => Sys2Proof.Machine.execJne r s
  | .sub rA rB => Sys2Proof.Machine.execSub rA rB s
  | .and rA rB => Sys2Proof.Machine.execAnd rA rB s
  | .or rA rB => Sys2Proof.Machine.execOr rA rB s
  | .xor rA rB => Sys2Proof.Machine.execXor rA rB s
  | .not r => Sys2Proof.Machine.execNot r s

end Sys2Proof.Machine
end

