-- ==== Sys2Proof/Machine/Step.lean ====
section
/-! DEFINITION. One step of the execution loop (R235), and the placing of an instruction where the next step fetches. -/

namespace Sys2Proof.Machine

/-- Step (R235) for a build `c`: while Running, fetch, decode and execute one whole instruction, or perform fault entry. A
terminal state has no successor (R236, log 23). -/
def stepWith (c : Config) (s : State) : Host.Outcome State Fault Refusal :=
  match s.status with
  | .running =>
    match fetchInstr c s with
    | .ok i => exec i s
    | .error (op, r) => .next (s.enterFault op r)
  | .halted => .fault .haltedNoSuccessor
  | .faulted _ => .fault .faultedNoSuccessor

/-- Step in the reference configuration (R6, log 2). -/
def step (s : State) : Host.Outcome State Fault Refusal := stepWith Config.reference s

/-- `s` with a table word's instruction stored at `pc` and the core Running, so that the next step fetches and runs it
(R235; log 25). The three bytes are the longest instruction's; the bits above `nbits` are 0. -/
def State.withFetchWord (s : State) (nbits w : Nat) : State :=
  { s with status := .running, mem := storeBytes s.mem s.pc.toNat (tableBytes nbits w) }

end Sys2Proof.Machine
end

