-- ==== Sys2Proof/Machine/Interface.lean ====
section
/-! DEFINITION. The core's interface to its host (R40 to R46, R210, R231, R233): the load port and launch, the board with
its `rst` line, and the output, status and inspection ports. The grouping is the spec's own (D18, D19, log 18). -/

namespace Sys2Proof.Machine

/-! ## Loading (R41, R231, R233) -/

/-- The Loader's writes: successive bytes from address `a` upward, each a `MemWrite`. A byte past address 255 has no
address, and the write contract fails (R41). -/
def loadImage (m : Memory) (a : Nat) : List Byte → Except Raise Memory
  | [] => .ok m
  | b :: rest => do
    let m' ← memWrite m (a : Int) b
    loadImage m' (a + 1) rest

/-- The launch state (R233): the reset state with the image in memory from address 0, or the host-side failure of an image
over 256 bytes (R41, D19). -/
def launch (c : Config) (image : List Byte) : Except Raise State := do
  let m ← loadImage (State.resetWith c).mem 0 image
  return { State.resetWith c with mem := m }

/-! ## The board: the core with its `rst` line and load port (R40, R41, R44) -/

/-- The input pins at one moment. -/
structure Pins where
  /-- `rst` (R44). -/
  rst : Bool
  /-- `load_we` (R41). -/
  loadWe : Bool
  /-- `load_addr[7:0]` (R41). -/
  loadAddr : Byte
  /-- `load_data[7:0]` (R41). -/
  loadData : Byte
deriving DecidableEq, Repr

/-- The core and the level of `rst` it last saw. -/
structure Board where
  /-- `rst` is held. -/
  rst : Bool
  /-- The core. -/
  core : State
deriving DecidableEq, Repr

/-- One moment of the board. With `rst` held the core is at its reset state, to which the load port may write; it takes no
step (R41, R44). With `rst` released it takes one step while Running, stays as it is in a terminal state (R236), and the
load port does nothing (R40). -/
def Board.clock (c : Config) (p : Pins) (b : Board) : Board :=
  if p.rst then
    let held : State := if b.rst then b.core else State.resetWith c
    ⟨true, if p.loadWe then { held with mem := held.mem.write p.loadAddr.toNat p.loadData } else held⟩
  else
    ⟨false, match stepWith c b.core with
      | .next t => t
      | .fault _ => b.core
      | .refused _ => b.core⟩

/-- The pins of the Loader writing byte `d` at address `a` with `rst` held. -/
def Pins.load (a d : Byte) : Pins := ⟨true, true, a, d⟩

/-- The pins with `rst` held and the load port idle. -/
def Pins.hold : Pins := ⟨true, false, 0, 0⟩

/-- The pins that put byte `d` at address `a`, a whole number. `load_addr` has 8 bits, so a byte past address 255 has no
pins: it has no address, and the write contract's failure is the Loader's (R41, R52). -/
def loadPin (a : Nat) (d : Byte) : Except Raise Pins :=
  if addressOk a then .ok (Pins.load (BitVec.ofNat 8 a) d) else .error ⟨.outOfBoundsMemory, some (a : Int)⟩

/-- The Loader's pins for successive bytes from address `a` upward, one a moment. -/
def loadPins (a : Nat) : List Byte → Except Raise (List Pins)
  | [] => .ok []
  | d :: rest => do
    let p ← loadPin a d
    let ps ← loadPins (a + 1) rest
    return p :: ps

/-- The Loader's pins for an image, from address 0 upward (R41, R231), or the host-side failure of an image over 256 bytes:
it cannot be loaded, so no boot follows (R41, D19, log 18). -/
def bootPins (image : List Byte) : Except Raise (List Pins) := loadPins 0 image

/-- The pins with `rst` released and the load port idle. -/
def Pins.run : Pins := ⟨false, false, 0, 0⟩

/-! ## Outputs (R42, R43, R45, R210) -/

/-- The cause codes (R205, D10, log 10); 0 when the status is not Faulted. -/
def Cause.code : Cause → Nat
  | .decodeError => 1
  | .outOfBoundsMemory => 2
  | .outOfBoundsRegister => 3
  | .unsupportedAluOperation => 4

/-- The fault record, when there is one (R32, R45). -/
def inspectFaultRecord (s : State) : Option FaultRecord :=
  match s.status with
  | .faulted r => some r
  | .running => none
  | .halted => none

/-- The status outputs (R43). -/
structure StatusPins where
  /-- `running`. -/
  running : Bool
  /-- `halted`. -/
  halted : Bool
  /-- `faulted`. -/
  faulted : Bool
  /-- `fault_cause` as its code (R205). -/
  faultCause : Nat
  /-- `fault_pc`, when faulted. -/
  faultPc : Option PcWord
  /-- `fault_opcode`, when faulted and the opcode was fetched. -/
  faultOpcode : Option Byte
deriving DecidableEq, Repr

/-- The status outputs of a state (R43). -/
def statusPins (s : State) : StatusPins :=
  match s.status with
  | .running => ⟨true, false, false, 0, none, none⟩
  | .halted => ⟨false, true, false, 0, none, none⟩
  | .faulted r => ⟨false, false, true, r.cause.code, some r.pc, r.opcode⟩

/-- The process exit code the host reports (R210): none while the run goes on (R238). -/
def exitCode (c : Config) (s : State) : Option Nat :=
  match s.status with
  | .running => none
  | .halted => some 0
  | .faulted _ => some c.faultExitCode

/-- The output port over one step (R42): `out_data` where `out_valid`, none otherwise (log 21). -/
def outPort (before after : State) : Option Byte := (after.out.drop before.out.length).head?

/-- The inspection port's register read (R45). -/
def inspectReg (s : State) (i : Fin 8) : Byte := s.reg i

/-- The inspection port's memory read (R45): it never faults; outside `[0, 256)` it returns none. -/
def inspectMem (s : State) (a : Int) : Option Byte :=
  if addressOk a then some (s.mem.read a.toNat) else none

end Sys2Proof.Machine
end

