-- ==== Sys2Proof/Machine/Run.lean ====
section
/-! DEFINITION. The loop (R236) under fuel (R239): a run ends only in a terminal state; an executor that stops earlier
reports that it is out of fuel, never Halted and never Faulted. -/

namespace Sys2Proof.Machine

/-- What an executor under fuel reports. -/
inductive RunEnd where
  /-- The run ended: `status` is Halted or Faulted (R238). -/
  | ended (s : State)
  /-- The fuel ran out with the core still Running (R239). -/
  | outOfFuel (s : State)
deriving DecidableEq, Repr

/-- Apply Step while Running, at most `fuel` times (R236, R239). -/
def runWith (c : Config) : Nat → State → RunEnd
  | 0, s => if s.status = .running then .outOfFuel s else .ended s
  | fuel + 1, s =>
    match stepWith c s with
    | .next t => runWith c fuel t
    | .fault _ => .ended s
    | .refused _ => .ended s

end Sys2Proof.Machine
end

