-- ==== Sys2Proof/Safety.lean ====
section
/-! DEFINITION. What claims use: reachability, the state invariant, and what a successful end is (R238). -/

namespace Sys2Proof.Machine

/-- `t` is reached from `s` by steps of the build `c` (R236). -/
inductive Reaches (c : Config) : State → State → Prop where
  /-- No step. -/
  | refl (s : State) : Reaches c s s
  /-- One more step at the end. -/
  | tail {s t u : State} : Reaches c s t → stepWith c t = .next u → Reaches c s u

/-- At most one flag is true: CMP makes exactly one true (R144) and reset none (R30). -/
def Flags.exclusive (f : Flags) : Prop := ¬(f.e ∧ f.l) ∧ ¬(f.e ∧ f.g) ∧ ¬(f.l ∧ f.g)

/-- What a fault record holds, by cause (R201 to R204): `pc` is the machine's own pc (R206), and `info` is as the tables
say. -/
def FaultRecord.sound (r : FaultRecord) (pc : PcWord) : Prop :=
  r.pc = pc ∧
  match r.cause with
  | .decodeError => r.opcode ≠ none ∧ r.info = none
  | .outOfBoundsMemory => r.info = some 256 ∨ (r.info = some (-1) ∧ r.opcode ≠ none)
  | .outOfBoundsRegister => r.opcode ≠ none ∧ ∃ k : Nat, r.info = some (k : Int) ∧ 8 ≤ k ∧ k ≤ 255
  | .unsupportedAluOperation => False

/-- The invariant of the core: canonical memory, pc in `[0, 256]` (R26), exclusive flags, a sound fault record. -/
structure State.Inv (s : State) : Prop where
  memWf : s.mem.wf
  pcInRange : s.pc.toNat ≤ 256
  flagsExclusive : s.flags.exclusive
  recordSound : ∀ r, s.status = .faulted r → r.sound s.pc

/-- A successful end (R238): a `Faulted` end is not one. -/
def State.successfulEnd (s : State) : Prop := s.status = .halted

/-- A run of the build `c` from `s` that ends successfully within some number of steps (R238). -/
def SuccessfulRun (c : Config) (s t : State) : Prop := Reaches c s t ∧ t.successfulEnd

/-! ## The terms of claims about one instruction -/

/-- The instruction `i` raises `cause` with `info` in `s`: the record names the instruction's pc and opcode (R32, R206). That
a raise writes nothing else is a claim of its own. -/
def Raises (i : Instr) (s : State) (cause : Cause) (info : Option Int) : Prop :=
  ∃ t, exec i s = .next t ∧ t.status = .faulted ⟨cause, s.pc, some i.name.opcode, info⟩

/-- The step of `s` ends in the fault `cause` with this opcode and info (R206, R235). -/
def StepRaises (c : Config) (s : State) (cause : Cause) (opcode : Option Byte) (info : Option Int) : Prop :=
  ∃ t, stepWith c s = .next t ∧ t.status = .faulted ⟨cause, s.pc, opcode, info⟩

/-- Every register but those of `ds` reads as before. -/
def SameRegsBut (s t : State) (ds : List (Fin 8)) : Prop := ∀ k, k ∉ ds → t.reg k = s.reg k

/-- Every byte of memory reads as before. -/
def SameBytes (s t : State) : Prop := ∀ a : Nat, t.mem.read a = s.mem.read a

/-- Every byte of memory but the one at `a` reads as before. -/
def SameBytesBut (s t : State) (a : Nat) : Prop := ∀ b : Nat, b ≠ a → t.mem.read b = s.mem.read b

/-- When the instruction's last operand byte lies past address 255, its step raises OutOfBounds(memory, 256) (R74, R202). -/
def OperandFetchFaults (i : Instr) : Prop :=
  ∀ (c : Config) (s : State), i.name.inMap c = true → s.status = .running → s.pc.toNat ≤ 255 →
    s.mem.read s.pc.toNat = i.name.opcode → 256 < s.pc.toNat + (encode i).length →
    StepRaises c s .outOfBoundsMemory (some i.name.opcode) (some 256)

/-- The encoding, operand fetch and register check of a one-register instruction (F1, R73): opcode `op`, then the register
byte, which raises OutOfBounds(register, r) at 8 or more. -/
def OneRegisterForm (mk : Byte → Instr) (op : Byte) : Prop :=
  (∀ r, encode (mk r) = [op, r]) ∧ (∀ r, OperandFetchFaults (mk r)) ∧
  ∀ r s, 8 ≤ r.toNat → Raises (mk r) s .outOfBoundsRegister (some (r.toNat : Int))

/-- The encoding, operand fetch and register checks of a two-register instruction (F2R, R73): `rA` is checked before `rB`. -/
def TwoRegisterForm (mk : Byte → Byte → Instr) (op : Byte) : Prop :=
  (∀ rA rB, encode (mk rA rB) = [op, rA, rB]) ∧ (∀ rA rB, OperandFetchFaults (mk rA rB)) ∧
  (∀ rA rB s, 8 ≤ rA.toNat → Raises (mk rA rB) s .outOfBoundsRegister (some (rA.toNat : Int))) ∧
  ∀ rA rB s, rA.toNat < 8 → 8 ≤ rB.toNat → Raises (mk rA rB) s .outOfBoundsRegister (some (rB.toNat : Int))

/-- `t` is `s` after an instruction whose only results are the value `v` in register `d` and the advance by `w`. -/
def RegisterResult (s t : State) (d : Fin 8) (v : Nat) (w : Nat) : Prop :=
  (t.reg d).toNat = v ∧ SameRegsBut s t [d] ∧ t.pc.toNat = s.pc.toNat + w ∧ t.flags = s.flags ∧ t.status = s.status ∧
  t.mem = s.mem ∧ t.out = s.out

/-- The rule of a two-register ALU instruction that writes `f x[rA] x[rB]` to `x[rA]` (R140, R142, R143, R145 to R148). -/
def AluRule (mk : Byte → Byte → Instr) (op : Byte) (f : Nat → Nat → Nat) : Prop :=
  TwoRegisterForm mk op ∧
  ∀ (a b : Fin 8) (s : State), s.pc.toNat ≤ 256 →
    ∃ t, exec (mk (regByte a) (regByte b)) s = .next t ∧
      RegisterResult s t a (f (s.reg a).toNat (s.reg b).toNat) 3

end Sys2Proof.Machine
end

