-- ==== Sys2Proof/Certificates/Slice0/Obligations.lean ====
section
/-! DEFINITION. The statements for the provers. Each says which rule of spec/ it formalises; where a clause rests on a decision
the spec marks as its own (D<n> of spec/92_eei_decisions.md) or on the model's choice, its docstring names the log entry. -/

open Sys2Proof Sys2Proof.Machine

/-! ## Encoding and decoding -/

/-- Words written out from the opcode map (R78, R73), one or more of each family, decode to their instructions. The opcode
values are D1's, from general knowledge (log 1); that 0x69 is NOT holds because `decodeTableWord` takes the reference
configuration, with `ext_alu` true (D2, log 2); how the bytes lie in a table word is log 31. -/
def Obligations.OpcodeWordsDecode : Prop :=
  decodeTableWord 8 0x00 = some .nop ∧
  decodeTableWord 8 0x01 = some .hlt ∧
  decodeTableWord 24 0xFF0082 = some (.ldi 0x00 0xFF) ∧
  decodeTableWord 16 0x0947 = some (.prn 0x09) ∧
  decodeTableWord 16 0x0745 = some (.push 0x07) ∧
  decodeTableWord 24 0x0201A0 = some (.add 0x01 0x02) ∧
  decodeTableWord 24 0x0403A7 = some (.cmp 0x03 0x04) ∧
  decodeTableWord 16 0x0269 = some (.not 0x02) ∧
  decodeTableWord 8 0x11 = some .ret ∧
  decodeTableWord 16 0x0355 = some (.jeq 0x03) ∧
  decodeTableWord 8 0xFF = none

/-- R80: opcode values are pairwise distinct single bytes whose top two bits are the operand count. -/
def Obligations.OpcodeMapMeetsConstraints : Prop :=
  (∀ m n : OpName, m.opcode = n.opcode → m = n) ∧
  ∀ i : Instr, operandCountBits i.name.opcode = i.operandBytes.length

/-- R77: decoding is an exact match of the whole opcode byte, and never looks at operand bytes to find the row. -/
def Obligations.DecodingMatchesWholeOpcode : Prop :=
  ∀ (c : Config) (op : Byte) (rest : List Byte),
    (∀ m : OpName, m.inMap c = true → m.opcode = op →
      ∀ i rest', decode c (op :: rest) = .ok (i, rest') → i.name = m) ∧
    ((∀ m : OpName, m.inMap c = true → m.opcode ≠ op) ↔ decode c (op :: rest) = .error (.illegalOpcode op))

/-- R83: any opcode byte not in the active map raises DecodeError with the opcode and the pc; 237 of the 256 byte values are
illegal with `ext_alu`, 242 without. -/
def Obligations.IllegalOpcodeRaisesDecodeError : Prop :=
  (∀ (c : Config) (s : State), s.status = .running → s.pc.toNat ≤ 255 →
    (∀ m : OpName, m.inMap c = true → m.opcode ≠ s.mem.read s.pc.toNat) →
    StepRaises c s .decodeError (some (s.mem.read s.pc.toNat)) none) ∧
  ∀ c : Config, ((List.range 256).filter fun b => (lookup c (BitVec.ofNat 8 b)).isNone).length =
    if c.extAlu then 237 else 242

/-- Decode of encode returns every instruction of the build's map, every operand byte at every value (R70, R73, R75, R78),
with the bytes after it untouched. -/
def Obligations.DecodeOfEncodeReturnsInstruction : Prop :=
  ∀ (c : Config) (i : Instr) (rest : List Byte), i.name.inMap c = true →
    decode c (encode i ++ rest) = .ok (i, rest)

/-- The other direction: bytes that decode are the encoding of what they decode to, and its row is in the build's map. -/
def Obligations.EncodeOfDecodeReturnsBytes : Prop :=
  ∀ (c : Config) (bytes : List Byte) (i : Instr) (rest : List Byte), decode c bytes = .ok (i, rest) →
    bytes = encode i ++ rest ∧ i.name.inMap c = true

/-- R72 with C12: an instruction's width is `op[7:6] + 1` bytes, and an instruction that neither transfers control nor ends
the run, and a jump not taken, advances pc by it. HLT is C12's exception (log 7). -/
def Obligations.SequentialAdvanceByWidth : Prop :=
  (∀ i : Instr, (encode i).length = opcodeWidth i.name.opcode) ∧
  ∀ (i : Instr) (s t : State), s.pc.toNat ≤ 256 → exec i s = .next t → t.status = .running →
    (∀ r, i ≠ .call r) → i ≠ .ret → (∀ r, i ≠ .jmp r) →
    (∀ r, i = .jeq r → s.flags.e = false) → (∀ r, i = .jne r → s.flags.e = true) →
    t.pc.toNat = s.pc.toNat + opcodeWidth i.name.opcode

/-! ## Memory -/

/-- R51: `MemRead` returns the byte in range, and raises OutOfBounds(memory, a) otherwise; it never wraps or clamps. -/
def Obligations.MemReadContract : Prop :=
  ∀ (m : Memory) (a : Int),
    (0 ≤ a → a < 256 → memRead m a = .ok (m.read a.toNat)) ∧
    (a < 0 ∨ 256 ≤ a → memRead m a = .error ⟨.outOfBoundsMemory, some a⟩)

/-- `MemWrite` (20_memory.md section 1) stores the byte in its cell and in no other, and out of range raises and stores nothing
(there is no new memory). That memory has a canonical form, and that it is kept, is the model's choice (log 32). -/
def Obligations.MemWriteContract : Prop :=
  ∀ (m : Memory) (a : Int) (v : Byte), m.wf →
    (0 ≤ a → a < 256 → ∃ m', memWrite m a v = .ok m' ∧ m'.wf ∧ memRead m' a = .ok v ∧
      ∀ b, b ≠ a → memRead m' b = memRead m b) ∧
    (a < 0 ∨ 256 ≤ a → memWrite m a v = .error ⟨.outOfBoundsMemory, some a⟩)

/-- Canonical memories that read alike in every cell are equal data (the model's form of memory, log 32). -/
def Obligations.CanonicalMemoriesWithEqualReadsAreEqual : Prop :=
  ∀ m n : Memory, m.wf → n.wf → (∀ a : Nat, a < 256 → m.read a = n.read a) → m = n

/-! ## Reset, launch and the host -/

/-- The reset state (10_state.md section 7): the parameters in the registers, pc 0 (D5, log 5), flags false, Running, every
cell 0 (D27, log 22), nothing printed; and the reference values of R6 (logs 3, 4). -/
def Obligations.ResetLeavesSpecValues : Prop :=
  (∀ c : Config,
    (∀ k : Fin 7, (State.resetWith c).reg k.castSucc = c.gprReset.get k) ∧ (State.resetWith c).sp = c.spReset ∧
    (State.resetWith c).pc.toNat = 0 ∧ (State.resetWith c).flags = ⟨false, false, false⟩ ∧
    (State.resetWith c).status = .running ∧ (∀ a : Nat, (State.resetWith c).mem.read a = 0) ∧
    (State.resetWith c).out = []) ∧
  State.reset = State.resetWith Config.reference ∧ State.reset.sp = 0xF4 ∧
  ∀ k : Fin 8, k ≠ spIndex → State.reset.reg k = 0

/-- The launch state (70_reset_and_hazards.md section 1) is the reset state with `M` replaced by the loaded image, and Running.
That a cell past the image reads 0 rests on reset clearing memory (D27, log 22). -/
def Obligations.LaunchHoldsImage : Prop :=
  ∀ (c : Config) (image : List Byte), image.length ≤ 256 →
    ∃ s, launch c image = .ok s ∧ (∀ a : Nat, s.mem.read a = image.getD a 0) ∧ s.status = .running ∧
      s.regs = (State.resetWith c).regs ∧ s.pc = (State.resetWith c).pc ∧ s.flags = (State.resetWith c).flags ∧
      s.out = (State.resetWith c).out

/-- An image over 256 bytes cannot be loaded, whether taken as the launch input or as the Loader's pins: the 257th byte has no
address (R41, D19, log 18). -/
def Obligations.OversizedImageFailsToLaunch : Prop :=
  ∀ (c : Config) (image : List Byte), 256 < image.length →
    launch c image = .error ⟨.outOfBoundsMemory, some 256⟩ ∧ bootPins image = .error ⟨.outOfBoundsMemory, some 256⟩

/-- Boot (70_reset_and_hazards.md section 1; the ports are D18's, reset clearing memory D27's, logs 18, 22): assert `rst`, reset
takes effect, the Loader writes the image through the load port from address 0 upward, release `rst`: the board holds the launch state, and its first moment after the release is the step from pc 0. -/
def Obligations.BootThroughLoadPortReachesLaunch : Prop :=
  ∀ (c : Config) (b : Board) (image : List Byte), b.rst = false → image.length ≤ 256 →
    ∃ s t ps, launch c image = .ok s ∧ (∀ a : Nat, image.length ≤ a → s.mem.read a = 0) ∧ bootPins image = .ok ps ∧
      (Pins.hold :: ps).foldl (fun b' p => b'.clock c p) b = ⟨true, s⟩ ∧
      s.pc.toNat = 0 ∧ stepWith c s = .next t ∧ Board.clock c Pins.run ⟨true, s⟩ = ⟨false, t⟩

/-- The host's reach (10_state.md section 8), for every value of the pins: with `rst` released the board takes the core's own
step, or stays in a terminal state, whatever the load port holds; asserting `rst` resets; holding it with `load_we` low
changes nothing, whatever the address and data pins are; a load changes the loaded cell alone, of the held core, or of the
reset state at the moment `rst` rises. The ports are D18's, and a load at that moment is the model's choice (log 18). -/
def Obligations.HostChangesStateOnlyByResetAndLoad : Prop :=
  ∀ (c : Config) (b : Board) (p : Pins),
    (p.rst = false →
      (∀ t, stepWith c b.core = .next t → b.clock c p = ⟨false, t⟩) ∧
      (b.core.status ≠ .running → b.clock c p = ⟨false, b.core⟩)) ∧
    (p.rst = true → p.loadWe = false → b.clock c p = if b.rst then b else ⟨true, State.resetWith c⟩) ∧
    (p.rst = true → p.loadWe = true → b.core.mem.wf →
      ∃ held s, held = (if b.rst then b.core else State.resetWith c) ∧ b.clock c p = ⟨true, s⟩ ∧
        s.mem.read p.loadAddr.toNat = p.loadData ∧ SameBytesBut held s p.loadAddr.toNat ∧
        s = { held with mem := s.mem })

/-- Status outputs, exit codes and the inspection port (10_state.md section 8, 60_exceptions.md R205 and R210; D10, D20, logs
10, 19): one of `running`, `halted`, `faulted`; cause codes 1 to 4, 0 when not faulted; exit code 0 on Halted, not 0 on
Faulted, none while Running; an inspection read outside memory returns none. -/
def Obligations.StatusOutputsAndExitCode : Prop :=
  ∀ (c : Config) (s : State),
    (s.status = .running → statusPins s = ⟨true, false, false, 0, none, none⟩ ∧ exitCode c s = none) ∧
    (s.status = .halted → statusPins s = ⟨false, true, false, 0, none, none⟩ ∧ exitCode c s = some 0) ∧
    (∀ r, s.status = .faulted r → inspectFaultRecord s = some r ∧
      statusPins s = ⟨false, false, true, r.cause.code, some r.pc, r.opcode⟩ ∧
      (∃ n, exitCode c s = some n ∧ n ≠ 0)) ∧
    ([Cause.decodeError, .outOfBoundsMemory, .outOfBoundsRegister, .unsupportedAluOperation].map Cause.code =
      [1, 2, 3, 4]) ∧
    ∀ a : Int, inspectMem s a = if 0 ≤ a ∧ a < 256 then some (s.mem.read a.toNat) else none

/-! ## The step -/

/-- A step runs the decoded instruction (70_reset_and_hazards.md section 2): the bytes fetched are those at pc, pc+1 and pc+2
that exist, and when they decode to `i`, the step is `exec i`, with nothing added. That the fetch takes up to three bytes,
where an instruction reads its own operand bytes and no more (R74), is the model's DEDUCED choice (log 26). -/
def Obligations.StepRunsDecodedInstruction : Prop :=
  (∀ (s : State) (k : Nat), (fetchBytes s)[k]? =
    if k < 3 ∧ s.pc.toNat + k < 256 then some (s.mem.read (s.pc.toNat + k)) else none) ∧
  (∀ (c : Config) (s : State) (i : Instr) (rest : List Byte), s.status = .running →
    decode c (fetchBytes s) = .ok (i, rest) → stepWith c s = exec i s) ∧
  ∀ (s : State) (i : Instr) (rest : List Byte), s.status = .running →
    decode Config.reference (fetchBytes s) = .ok (i, rest) → step s = exec i s

/-- R236: the core steps exactly while Running, and the loop ends only via HLT or a fatal error. -/
def Obligations.LoopRunsUntilHltOrFault : Prop :=
  (∀ (c : Config) (s : State), (∃ t, stepWith c s = .next t) ↔ s.status = .running) ∧
  ∀ (c : Config) (s t : State), stepWith c s = .next t →
    t.status = .running ∨ (t.status = .halted ∧ ∃ rest, decode c (fetchBytes s) = .ok (.hlt, rest)) ∨
      ∃ r, t.status = .faulted r

/-- The invariant (canonical memory, pc in `[0, 256]`, at most one flag, a sound fault record) holds at reset and after every
launch, on every build. -/
def Obligations.ResetStateSatisfiesInvariant : Prop :=
  State.reset.Inv ∧ (∀ c : Config, (State.resetWith c).Inv) ∧
  ∀ (c : Config) (image : List Byte) (s : State), launch c image = .ok s → s.Inv

/-- Every step keeps the invariant, from every state that has it. -/
def Obligations.StepKeepsInvariant : Prop :=
  (∀ s t : State, s.Inv → step s = .next t → t.Inv) ∧
  ∀ (c : Config) (s t : State), s.Inv → stepWith c s = .next t → t.Inv

/-- Every state a loaded program reaches, on every build, has the invariant. -/
def Obligations.EveryReachableStateSatisfiesInvariant : Prop :=
  ∀ (c : Config) (image : List Byte) (s t : State), launch c image = .ok s → Reaches c s t → t.Inv

/-- An executor under fuel is sound and complete (70_reset_and_hazards.md section 2): it reports an end exactly for a reached
terminal state, and otherwise a reached Running state. -/
def Obligations.FuelReportsWhatIsReached : Prop :=
  ∀ (c : Config) (fuel : Nat) (s t : State),
    (runWith c fuel s = .ended t → Reaches c s t ∧ t.status ≠ .running) ∧
    (runWith c fuel s = .outOfFuel t → Reaches c s t ∧ t.status = .running) ∧
    (Reaches c s t → t.status ≠ .running → ∃ n, runWith c n s = .ended t)

/-- R239: a run that never reaches a terminal state is kept as an infinite execution: every state it reaches has a next, and
an executor reports out of fuel for every fuel, never an end. A JMP to its own address (R173's corner) is such a run. -/
def Obligations.HangsAreInfiniteExecutions : Prop :=
  (∀ (c : Config) (s : State), (∀ t, Reaches c s t → t.status = .running) →
    (∀ t, Reaches c s t → ∃ u, stepWith c t = .next u) ∧
    ∀ fuel, ∃ t, runWith c fuel s = .outOfFuel t ∧ Reaches c s t) ∧
  ∀ (c : Config) (s : State) (r : Fin 8), s.status = .running → s.pc.toNat ≤ 254 →
    s.mem.read s.pc.toNat = OpName.jmp.opcode → s.mem.read (s.pc.toNat + 1) = regByte r →
    (s.reg r).toNat = s.pc.toNat → stepWith c s = .next s ∧ ∀ fuel, runWith c fuel s = .outOfFuel s

/-- R234 and R207, with the reset of R230 (what reset clears is D27, log 22): a halted or faulted core takes no step, stays as
it is whatever the host's pins do while `rst` is released, and runs again only from reset. The board and its pins are the
model's reading of the ports (10_state.md section 8, D18, log 18). -/
def Obligations.TerminalStatesAreLeftOnlyByReset : Prop :=
  ∀ (c : Config) (b : Board), b.core.status ≠ .running →
    (¬ ∃ t, stepWith c b.core = .next t) ∧
    (∀ ps : List Pins, (∀ p ∈ ps, p.rst = false) → (ps.foldl (fun b' p => b'.clock c p) b).core = b.core) ∧
    (b.rst = false → b.clock c Pins.hold = ⟨true, State.resetWith c⟩ ∧ (State.resetWith c).status = .running)

/-- HLT and faults do not change memory (20_memory.md section 5; for faults that is precise faults, D8, log 8); after the run the
inspection port reads it as the last instruction left it, for as long as `rst` is released; a new run starts from reset. The
board and its pins are the model's reading of the ports (D18, log 18). -/
def Obligations.HaltAndFaultsKeepMemory : Prop :=
  ∀ (c : Config) (s t : State), stepWith c s = .next t → t.status ≠ .running →
    t.mem = s.mem ∧
    (∀ (ps : List Pins) (a : Int), (∀ p ∈ ps, p.rst = false) → 0 ≤ a → a < 256 →
      inspectMem (ps.foldl (fun b p => Board.clock c p b) ⟨false, t⟩).core a = some (s.mem.read a.toNat)) ∧
    Board.clock c Pins.hold ⟨false, t⟩ = ⟨true, State.resetWith c⟩

/-! ## Faults -/

/-- Operand fetch past address 255 raises OutOfBounds(memory, 256) for every row that is too wide for where it stands,
whatever the bytes before the edge are (30_encoding.md section 2, D17, D9, logs 9, 17). -/
def Obligations.OperandFetchPastTopFaults : Prop := ∀ i : Instr, OperandFetchFaults i

/-- The complete list of causes of OutOfBounds memory, with what each records (60_exceptions.md section 1). The rows for POP, RET
and CALL's return address are D11 and D13, that CALL's return-address check comes before its push bound is D9, POP R7's bound
is D12's and the operand fetch's fault D17's (logs 9, 11, 12, 13, 17). -/
def Obligations.MemoryFaultCausesComplete : Prop :=
  ∀ (c : Config) (s t : State) (opc : Option Byte) (info : Option Int), s.pc.toNat ≤ 256 → stepWith c s = .next t →
    (t.status = .faulted ⟨.outOfBoundsMemory, s.pc, opc, info⟩ ↔
      (s.pc.toNat = 256 ∧ opc = none ∧ info = some 256) ∨
      (∃ m : OpName, m.inMap c = true ∧ s.pc.toNat ≤ 255 ∧ s.mem.read s.pc.toNat = m.opcode ∧
        256 < s.pc.toNat + opcodeWidth m.opcode ∧ opc = some m.opcode ∧ info = some 256) ∨
      ∃ i rest, decode c (fetchBytes s) = .ok (i, rest) ∧ opc = some i.name.opcode ∧
        ((∃ r : Fin 8, (i = .push (regByte r) ∨ (i = .call (regByte r) ∧ s.pc.toNat < 254)) ∧ s.sp.toNat = 0 ∧
            info = some (-1)) ∨
         (∃ r : Fin 8, i = .pop (regByte r) ∧
            (if r = spIndex then s.mem.read s.sp.toNat else s.sp).toNat = 255 ∧ info = some 256) ∨
         (i = .ret ∧ s.sp.toNat = 255 ∧ info = some 256) ∨
         (∃ r : Fin 8, i = .call (regByte r) ∧ s.pc.toNat = 254 ∧ info = some 256)))

/-- OutOfBounds register is raised exactly when a register operand is 8 or more, and records the first such byte, `rA` before
`rB`, whatever the instruction's own checks would find (60_exceptions.md section 1; D9, D16, logs 9, 16). -/
def Obligations.RegisterFaultNamesFirstBadOperand : Prop :=
  ∀ (i : Instr) (s t : State) (k : Int), s.status = .running → exec i s = .next t →
    (t.status = .faulted ⟨.outOfBoundsRegister, s.pc, some i.name.opcode, some k⟩ ↔
      ∃ b, (i.regOperands.find? fun b => !isRegIndex b) = some b ∧ k = (b.toNat : Int))

/-- R204: no opcode in the map can raise UnsupportedALUOperation; its code is reserved. -/
def Obligations.UnsupportedAluOperationNeverRaised : Prop :=
  (∀ (c : Config) (s t : State) (r : FaultRecord), stepWith c s = .next t → t.status = .faulted r →
    r.cause ≠ .unsupportedAluOperation) ∧
  ∀ k : Cause, k.code = Cause.unsupportedAluOperation.code → k = .unsupportedAluOperation

/-- Fault entry (60_exceptions.md section 2): a step that ends Faulted changes nothing but the status (precise: D8, log 8), and
the record holds the pc and the byte there, none when the fetch itself faulted. -/
def Obligations.FaultEntryIsPrecise : Prop :=
  ∀ (c : Config) (s t : State) (r : FaultRecord), stepWith c s = .next t → t.status = .faulted r →
    t = { s with status := .faulted r } ∧ r.pc = s.pc ∧
    r.opcode = if s.pc.toNat < 256 then some (s.mem.read s.pc.toNat) else none

/-! ## Instructions: system and data -/

/-- NOP (40_system_and_data.md): pc + 1, nothing else. The opcode is D1's (log 1). -/
def Obligations.NopOnlyAdvances : Prop :=
  encode .nop = [0x00] ∧
  ∀ s : State, s.pc.toNat ≤ 256 → ∃ t, exec .nop s = .next t ∧ t.pc.toNat = s.pc.toNat + 1 ∧
    SameRegsBut s t [] ∧ t.flags = s.flags ∧ t.status = s.status ∧ t.mem = s.mem ∧ t.out = s.out

/-- HLT (40_system_and_data.md): Halted, nothing else changed; that pc stays is D7 (log 7). -/
def Obligations.HltHaltsInPlace : Prop :=
  encode .hlt = [0x01] ∧
  ∀ s : State, ∃ t, exec .hlt s = .next t ∧ t.status = .halted ∧ t.pc = s.pc ∧ SameRegsBut s t [] ∧
    t.flags = s.flags ∧ t.mem = s.mem ∧ t.out = s.out

/-- LDI (40_system_and_data.md): any immediate, stored unchanged in any register; R7 included, which moves SP (D14, log 14). -/
def Obligations.LdiLoadsImmediate : Prop :=
  (∀ r imm, encode (.ldi r imm) = [0x82, r, imm]) ∧ (∀ r imm, OperandFetchFaults (.ldi r imm)) ∧
  (∀ r imm s, 8 ≤ r.toNat → Raises (.ldi r imm) s .outOfBoundsRegister (some (r.toNat : Int))) ∧
  ∀ (d : Fin 8) (imm : Byte) (s : State), s.pc.toNat ≤ 256 →
    ∃ t, exec (.ldi (regByte d) imm) s = .next t ∧ RegisterResult s t d imm.toNat 3

/-- PRN (40_system_and_data.md): emits the register's byte at the end of `out` and on the port; a faulting PRN emits nothing
(D8, log 8; the opcode is D1's, log 1). -/
def Obligations.PrnEmitsRegister : Prop :=
  OneRegisterForm .prn 0x47 ∧
  (∀ (r : Byte) (s t : State), 8 ≤ r.toNat → exec (.prn r) s = .next t → t.out = s.out ∧ outPort s t = none) ∧
  ∀ (d : Fin 8) (s : State), s.pc.toNat ≤ 256 →
    ∃ t, exec (.prn (regByte d)) s = .next t ∧ t.out = s.out ++ [s.reg d] ∧ outPort s t = some (s.reg d) ∧
      t.pc.toNat = s.pc.toNat + 2 ∧ SameRegsBut s t [] ∧ t.flags = s.flags ∧ t.status = s.status ∧ t.mem = s.mem

/-! ## Instructions: stack -/

/-- PUSH (41_stack.md): SP is decremented without wrap, raising OutOfBounds(memory, -1) at 0, and the register is stored where
SP then points; PUSH R7 stores the decremented SP (D12, log 12). -/
def Obligations.PushStoresBelowSp : Prop :=
  OneRegisterForm .push 0x45 ∧
  (∀ (d : Fin 8) (s : State), s.sp.toNat = 0 → Raises (.push (regByte d)) s .outOfBoundsMemory (some (-1))) ∧
  ∀ (d : Fin 8) (s : State), s.mem.wf → s.pc.toNat ≤ 256 → 0 < s.sp.toNat →
    ∃ t, exec (.push (regByte d)) s = .next t ∧ t.sp.toNat = s.sp.toNat - 1 ∧
      t.mem.read (s.sp.toNat - 1) = (if d = spIndex then t.sp else s.reg d) ∧ SameBytesBut s t (s.sp.toNat - 1) ∧
      SameRegsBut s t [spIndex] ∧ t.pc.toNat = s.pc.toNat + 2 ∧ t.flags = s.flags ∧ t.status = s.status ∧ t.out = s.out

/-- POP (41_stack.md): the register takes the byte at SP and SP is incremented without wrap, raising OutOfBounds(memory, 256)
(D11, log 11); POP R7 ends with one more than the popped byte (D12, log 12); no check against an empty stack (D15, log 15). -/
def Obligations.PopLoadsAtSp : Prop :=
  OneRegisterForm .pop 0x46 ∧
  (∀ (d : Fin 8) (s : State), (if d = spIndex then s.mem.read s.sp.toNat else s.sp).toNat = 255 →
    Raises (.pop (regByte d)) s .outOfBoundsMemory (some 256)) ∧
  ∀ (d : Fin 8) (s : State), s.pc.toNat ≤ 256 →
    (if d = spIndex then s.mem.read s.sp.toNat else s.sp).toNat < 255 →
    ∃ t, exec (.pop (regByte d)) s = .next t ∧
      t.sp.toNat = (if d = spIndex then s.mem.read s.sp.toNat else s.sp).toNat + 1 ∧
      (d ≠ spIndex → t.reg d = s.mem.read s.sp.toNat) ∧ SameRegsBut s t [d, spIndex] ∧
      t.pc.toNat = s.pc.toNat + 2 ∧ t.flags = s.flags ∧ t.status = s.status ∧ t.mem = s.mem ∧ t.out = s.out

/-! ## Instructions: ALU -/

/-- ADD (42_alu.md): the sum modulo 256. The opcode is D1's, that `rA` is checked first D16's, the operand fetch's fault D17's
(logs 1, 16, 17); so too in the other ALU statements. -/
def Obligations.AddWrapsModulo256 : Prop := AluRule .add 0xA0 fun x y => (x + y) % 256

/-- MUL (42_alu.md): the low byte of the product (logs 1, 16, 17). -/
def Obligations.MulKeepsLowByte : Prop := AluRule .mul 0xA2 fun x y => (x * y) % 256

/-- SUB (42_alu.md), extension (D2, log 2): the difference modulo 256 (logs 1, 16, 17). -/
def Obligations.SubWrapsModulo256 : Prop := AluRule .sub 0xA1 fun x y => (x + 256 - y) % 256

/-- AND (42_alu.md), extension (D2, log 2; logs 1, 16, 17). -/
def Obligations.AndIsBitwise : Prop := AluRule .and 0xA8 fun x y => x &&& y

/-- OR (42_alu.md), extension (D2, log 2; logs 1, 16, 17). -/
def Obligations.OrIsBitwise : Prop := AluRule .or 0xAA fun x y => x ||| y

/-- XOR (42_alu.md), extension (D2, log 2; logs 1, 16, 17). -/
def Obligations.XorIsBitwise : Prop := AluRule .xor 0xAB fun x y => x ^^^ y

/-- NOT (42_alu.md), extension (D2, log 2; logs 1, 16, 17). -/
def Obligations.NotComplements : Prop :=
  OneRegisterForm .not 0x69 ∧
  ∀ (d : Fin 8) (s : State), s.pc.toNat ≤ 256 →
    ∃ t, exec (.not (regByte d)) s = .next t ∧ RegisterResult s t d (255 - (s.reg d).toNat) 2

/-- CMP (42_alu.md): writes all three flags from the unsigned comparison, exactly one true, and no register (opcode and checks:
logs 1, 16, 17). -/
def Obligations.CmpSetsExactlyOneFlag : Prop :=
  TwoRegisterForm .cmp 0xA7 ∧
  ∀ (a b : Fin 8) (s : State), s.pc.toNat ≤ 256 →
    ∃ t, exec (.cmp (regByte a) (regByte b)) s = .next t ∧
      (t.flags.e = true ↔ s.reg a = s.reg b) ∧ (t.flags.l = true ↔ (s.reg a).toNat < (s.reg b).toNat) ∧
      (t.flags.g = true ↔ (s.reg a).toNat > (s.reg b).toNat) ∧
      ([t.flags.e, t.flags.l, t.flags.g].count true = 1) ∧
      SameRegsBut s t [] ∧ t.pc.toNat = s.pc.toNat + 3 ∧ t.status = s.status ∧ t.mem = s.mem ∧ t.out = s.out

/-! ## Instructions: control transfer -/

/-- CALL (43_control_transfer.md): pushes `p + 2` and jumps to the register, read after the push, so CALL R7 jumps to the
decremented SP (D12, log 12); a return address of 256 raises OutOfBounds(memory, 256) before the push bound (D13, log 13). -/
def Obligations.CallPushesReturnAddress : Prop :=
  OneRegisterForm .call 0x50 ∧
  (∀ (d : Fin 8) (s : State), 254 ≤ s.pc.toNat → Raises (.call (regByte d)) s .outOfBoundsMemory (some 256)) ∧
  (∀ (d : Fin 8) (s : State), s.pc.toNat < 254 → s.sp.toNat = 0 →
    Raises (.call (regByte d)) s .outOfBoundsMemory (some (-1))) ∧
  ∀ (d : Fin 8) (s : State), s.mem.wf → s.pc.toNat < 254 → 0 < s.sp.toNat →
    ∃ t, exec (.call (regByte d)) s = .next t ∧ t.sp.toNat = s.sp.toNat - 1 ∧
      (t.mem.read (s.sp.toNat - 1)).toNat = s.pc.toNat + 2 ∧ SameBytesBut s t (s.sp.toNat - 1) ∧
      t.pc.toNat = (if d = spIndex then t.sp else s.reg d).toNat ∧
      SameRegsBut s t [spIndex] ∧ t.flags = s.flags ∧ t.status = s.status ∧ t.out = s.out

/-- RET (43_control_transfer.md): pops pc, raising OutOfBounds(memory, 256) at SP 255 (D11, log 11); and the document's law: a
CALL followed by RET, with no stack interference between, restores pc to the instruction after the CALL. -/
def Obligations.RetPopsPc : Prop :=
  encode .ret = [0x11] ∧
  (∀ s : State, s.sp.toNat = 255 → Raises .ret s .outOfBoundsMemory (some 256)) ∧
  (∀ s : State, s.sp.toNat < 255 →
    ∃ t, exec .ret s = .next t ∧ t.pc.toNat = (s.mem.read s.sp.toNat).toNat ∧ t.sp.toNat = s.sp.toNat + 1 ∧
      SameRegsBut s t [spIndex] ∧ t.flags = s.flags ∧ t.status = s.status ∧ t.mem = s.mem ∧ t.out = s.out) ∧
  ∀ (r : Byte) (s t u : State), s.mem.wf → s.status = .running → exec (.call r) s = .next t → t.status = .running →
    u.sp = t.sp → u.mem.read t.sp.toNat = t.mem.read t.sp.toNat →
    ∃ v, exec .ret u = .next v ∧ v.pc.toNat = s.pc.toNat + 2 ∧ v.sp = s.sp

/-- JMP (43_control_transfer.md): pc takes the register's byte; a JMP to its own address steps to the same state, for ever
(`Obligations.HangsAreInfiniteExecutions`). The opcode is D1's (log 1). -/
def Obligations.JmpSetsPc : Prop :=
  OneRegisterForm .jmp 0x54 ∧
  (∀ (d : Fin 8) (s : State),
    ∃ t, exec (.jmp (regByte d)) s = .next t ∧ t.pc.toNat = (s.reg d).toNat ∧
      SameRegsBut s t [] ∧ t.flags = s.flags ∧ t.status = s.status ∧ t.mem = s.mem ∧ t.out = s.out) ∧
  ∀ (d : Fin 8) (s : State), (s.reg d).toNat = s.pc.toNat → exec (.jmp (regByte d)) s = .next s

/-- JEQ (43_control_transfer.md): jumps iff `E`, else advances by 2; the register check applies either way (D9, log 9). -/
def Obligations.JeqTakenIffEqual : Prop :=
  OneRegisterForm .jeq 0x55 ∧
  ∀ (d : Fin 8) (s : State), s.pc.toNat ≤ 256 →
    ∃ t, exec (.jeq (regByte d)) s = .next t ∧
      t.pc.toNat = (if s.flags.e then (s.reg d).toNat else s.pc.toNat + 2) ∧
      SameRegsBut s t [] ∧ t.flags = s.flags ∧ t.status = s.status ∧ t.mem = s.mem ∧ t.out = s.out

/-- JNE (43_control_transfer.md): jumps iff not `E`, else advances by 2; the register check applies either way (D9, log 9). -/
def Obligations.JneTakenIffNotEqual : Prop :=
  OneRegisterForm .jne 0x56 ∧
  ∀ (d : Fin 8) (s : State), s.pc.toNat ≤ 256 →
    ∃ t, exec (.jne (regByte d)) s = .next t ∧
      t.pc.toNat = (if s.flags.e then s.pc.toNat + 2 else (s.reg d).toNat) ∧
      SameRegsBut s t [] ∧ t.flags = s.flags ∧ t.status = s.status ∧ t.mem = s.mem ∧ t.out = s.out

/-! ## Frames and whole-machine rules -/

/-- The frame of the forms that write one register and store nothing: LDI, ADD, MUL, SUB, AND, OR, XOR, NOT. -/
def Obligations.RegisterFormsFrame : Prop :=
  ∀ (i : Instr) (d : Fin 8) (rB imm : Byte) (s t : State),
    i ∈ [.ldi (regByte d) imm, .add (regByte d) rB, .mul (regByte d) rB, .sub (regByte d) rB, .and (regByte d) rB,
      .or (regByte d) rB, .xor (regByte d) rB, .not (regByte d)] →
    exec i s = .next t →
    SameRegsBut s t [d] ∧ t.flags = s.flags ∧ t.out = s.out ∧ SameBytes s t ∧
    (t.status = s.status ∨ ∃ r, t.status = .faulted r)

/-- The frame of the stack forms: PUSH and CALL change SP and the one byte at the decremented SP, the address their meaning
stores to; POP changes its register and SP; RET changes SP; none changes a flag or the output. -/
def Obligations.StackFormsFrame : Prop :=
  (∀ (i : Instr) (r : Byte) (s t : State), i = .push r ∨ i = .call r → s.mem.wf → exec i s = .next t →
    SameRegsBut s t [spIndex] ∧ t.flags = s.flags ∧ t.out = s.out ∧
    (t.status = s.status ∨ ∃ f, t.status = .faulted f) ∧
    (∀ s₁, s.decSp = .ok s₁ → SameBytesBut s t s₁.sp.toNat) ∧ (∀ e, s.decSp = .error e → SameBytes s t)) ∧
  (∀ (d : Fin 8) (s t : State), exec (.pop (regByte d)) s = .next t →
    SameRegsBut s t [d, spIndex] ∧ t.flags = s.flags ∧ t.out = s.out ∧ SameBytes s t ∧
    (t.status = s.status ∨ ∃ f, t.status = .faulted f)) ∧
  ∀ s t : State, exec .ret s = .next t →
    SameRegsBut s t [spIndex] ∧ t.flags = s.flags ∧ t.out = s.out ∧ SameBytes s t ∧
    (t.status = s.status ∨ ∃ f, t.status = .faulted f)

/-- The frame of the forms that write no register and store nothing: NOP, HLT, PRN, CMP, JMP, JEQ, JNE. Flags change for CMP
alone, the output for PRN alone, and the status to Halted for HLT alone. -/
def Obligations.OtherFormsFrame : Prop :=
  ∀ (i : Instr) (r rB : Byte) (s t : State),
    i ∈ [.nop, .hlt, .prn r, .cmp r rB, .jmp r, .jeq r, .jne r] → exec i s = .next t →
    SameRegsBut s t [] ∧ SameBytes s t ∧ (i ≠ .cmp r rB → t.flags = s.flags) ∧ (i ≠ .prn r → t.out = s.out) ∧
    (t.status = s.status ∨ (∃ f, t.status = .faulted f) ∨ (i = .hlt ∧ t.status = .halted))

/-- Over all instructions, flags are written only by CMP, and as its comparison gives them (10_state.md section 3). -/
def Obligations.FlagsWrittenOnlyByCmp : Prop :=
  ∀ (i : Instr) (s t : State), exec i s = .next t → t.flags ≠ s.flags →
    ∃ a b, i = .cmp (regByte a) (regByte b) ∧ t.flags = compareFlags (s.reg a) (s.reg b)

/-- No instruction reads `L` or `G` (10_state.md section 3): two states that differ in them alone go on alike, but for flags, and
the flags are either kept in both or the same in both. -/
def Obligations.LessAndGreaterFlagsAreNeverRead : Prop :=
  ∀ (i : Instr) (s : State) (l g : Bool),
    ∃ t t', exec i s = .next t ∧ exec i { s with flags := ⟨s.flags.e, l, g⟩ } = .next t' ∧
      t' = { t with flags := t'.flags } ∧
      ((t.flags = s.flags ∧ t'.flags = ⟨s.flags.e, l, g⟩) ∨ t'.flags = t.flags)

/-- No instruction but CALL reads pc as a data value (10_state.md section 2): from two states that differ in pc alone,
registers, flags, memory and output go on alike. -/
def Obligations.PcIsDataOnlyForCall : Prop :=
  ∀ (i : Instr) (s : State) (p : PcWord), (∀ r, i ≠ .call r) →
    ∃ t t', exec i s = .next t ∧ exec i { s with pc := p } = .next t' ∧
      t'.regs = t.regs ∧ t'.flags = t.flags ∧ t'.mem = t.mem ∧ t'.out = t.out

/-- No instruction forms a data address other than from SP (20_memory.md section 2). Reads: two states whose memories agree at
the cell SP addresses go on alike, but for memory. Stores: in both, memory is kept, or the one byte that changes is at the
decremented SP and is the same byte. The canonical form is log 32's. -/
def Obligations.DataAccessesOnlyAtSp : Prop :=
  ∀ (i : Instr) (s : State) (m : Memory), m.read s.sp.toNat = s.mem.read s.sp.toNat →
    ∃ t t', exec i s = .next t ∧ exec i { s with mem := m } = .next t' ∧ t' = { t with mem := t'.mem } ∧
      (s.mem.wf → m.wf →
        (SameBytes s t ∧ SameBytes { s with mem := m } t') ∨
        (0 < s.sp.toNat ∧ SameBytesBut s t (s.sp.toNat - 1) ∧ SameBytesBut { s with mem := m } t' (s.sp.toNat - 1) ∧
          t'.mem.read (s.sp.toNat - 1) = t.mem.read (s.sp.toNat - 1)))

/-- Output is in execution order (10_state.md section 8, D22, log 21): PRN alone appends, and along a run `out` only grows at
its end. -/
def Obligations.OutputOnlyGrowsByPrn : Prop :=
  (∀ (i : Instr) (s t : State), exec i s = .next t →
    t.out = s.out ∨ ∃ d, i = .prn (regByte d) ∧ t.out = s.out ++ [s.reg d]) ∧
  ∀ (c : Config) (s t : State), Reaches c s t → s.out <+: t.out

/-- Fetch is coherent with stores (20_memory.md section 5, the spec's inference R63): what PUSH or CALL writes is what every
fetch of that address reads while memory stays so, the very next one included. PUSH R7's byte is D12's (log 12). -/
def Obligations.FetchSeesStackStores : Prop :=
  ∀ (d : Fin 8) (s t u : State) (k : Nat), s.mem.wf → s.status = .running → t.status = .running → u.mem = t.mem →
    k < 3 → u.pc.toNat + k = t.sp.toNat →
    (exec (.push (regByte d)) s = .next t →
      (fetchBytes u)[k]? = some (if d = spIndex then t.sp else s.reg d)) ∧
    (exec (.call (regByte d)) s = .next t →
      (fetchBytes u)[k]? = some (BitVec.ofNat 8 (s.pc.toNat + 2)))

/-- The document's round-trip law (41_stack.md, POP): PUSH then POP of the same register, R7 included (D12, log 12), leaves every
register unchanged whenever the PUSH does not fault. -/
def Obligations.PushPopRoundTrip : Prop :=
  ∀ (r : Byte) (s t : State), s.mem.wf → s.status = .running → exec (.push r) s = .next t → t.status = .running →
    ∃ u, exec (.pop r) t = .next u ∧ u.status = .running ∧ SameRegsBut s u []

/-- No control transfer sets pc to 256 (10_state.md section 2): a taken transfer leaves pc at an address. -/
def Obligations.TransferTargetsAreAddresses : Prop :=
  ∀ (i : Instr) (s t : State), exec i s = .next t → t.status = .running →
    ((∃ r, i = .call r) ∨ i = .ret ∨ (∃ r, i = .jmp r) ∨ (∃ r, i = .jeq r ∧ s.flags.e = true) ∨
      (∃ r, i = .jne r ∧ s.flags.e = false)) →
    t.pc.toNat < 256
end

