-- ==== Sys2Proof/Laws/Decode.lean ====
section
/-! SUPPORT. Facts about the opcode map and the decoder's parts. -/

namespace Sys2Proof

theorem mem_opRows (m : OpName) : m ∈ opRows := by cases m <;> decide

theorem OpName.opcode_injective {m n : OpName} (h : m.opcode = n.opcode) : m = n := by
  revert h; cases m <;> cases n <;> decide

/-- What `lookup` answers: the row whose opcode is the whole byte, when the build has it. -/
theorem lookup_eq_some_iff (c : Config) (op : Byte) (m : OpName) :
    lookup c op = some m ↔ m.opcode = op ∧ m.inMap c = true := by
  constructor
  · intro h
    simpa using List.find?_some h
  · rintro ⟨rfl, hm⟩
    cases hf : lookup c m.opcode with
    | none => exact absurd (List.find?_eq_none.1 hf m (mem_opRows m)) (by simp [hm])
    | some n =>
      have hn := List.find?_some hf
      simp only [Bool.and_eq_true, beq_iff_eq] at hn
      rw [OpName.opcode_injective hn.1]

theorem lookup_eq_none_iff (c : Config) (op : Byte) :
    lookup c op = none ↔ ∀ m : OpName, m.inMap c = true → m.opcode ≠ op := by
  constructor
  · intro h m hm e
    rw [(lookup_eq_some_iff c op m).2 ⟨e, hm⟩] at h
    cases h
  · intro h
    cases hf : lookup c op with
    | none => rfl
    | some m =>
      have := (lookup_eq_some_iff c op m).1 hf
      exact absurd this.1 (h m this.2)

@[simp] theorem OpName.build_name (m : OpName) (a b : Byte) : (m.build a b).name = m := by cases m <;> rfl

end Sys2Proof
end

