-- ==== Sys2Proof/Laws/Memory.lean ====
section
/-! SUPPORT. The laws of memory: read after write, the canonical form, and that it makes equal memories equal data. -/

namespace Sys2Proof.Machine

theorem addressOk_iff (a : Int) : addressOk a = true ↔ 0 ≤ a ∧ a < 256 := by
  cases a with
  | ofNat n => simp only [addressOk, memSize, decide_eq_true_eq, Int.ofNat_eq_natCast]; omega
  | negSucc n => simp only [addressOk, Bool.false_eq_true, false_iff]; omega

/-- A byte is always an address (R24, R50). -/
@[simp] theorem addressOk_byte (b : Byte) : addressOk (b.toNat : Int) = true := by
  rw [addressOk_iff]; have := b.isLt; omega

@[simp] theorem memRead_byte (m : Memory) (b : Byte) : memRead m (b.toNat : Int) = .ok (m.read b.toNat) := by
  simp [memRead]

@[simp] theorem memWrite_byte (m : Memory) (b v : Byte) : memWrite m (b.toNat : Int) v = .ok (m.write b.toNat v) := by
  simp [memWrite]

theorem memRead_of_lt (m : Memory) {a : Nat} (h : a < 256) : memRead m (a : Int) = .ok (m.read a) := by
  have : addressOk (a : Int) = true := by rw [addressOk_iff]; omega
  simp [memRead, this]

theorem memRead_of_ge (m : Memory) {a : Nat} (h : 256 ≤ a) :
    memRead m (a : Int) = .error ⟨.outOfBoundsMemory, some (a : Int)⟩ := by
  have : addressOk (a : Int) = false := by
    rw [Bool.eq_false_iff]; intro e; rw [addressOk_iff] at e; omega
  simp [memRead, this]

theorem memWrite_of_lt (m : Memory) {a : Nat} (h : a < 256) (v : Byte) :
    memWrite m (a : Int) v = .ok (m.write a v) := by
  have : addressOk (a : Int) = true := by rw [addressOk_iff]; omega
  simp [memWrite, this]

theorem memWrite_of_ge (m : Memory) {a : Nat} (h : 256 ≤ a) (v : Byte) :
    memWrite m (a : Int) v = .error ⟨.outOfBoundsMemory, some (a : Int)⟩ := by
  have : addressOk (a : Int) = false := by
    rw [Bool.eq_false_iff]; intro e; rw [addressOk_iff] at e; omega
  simp [memWrite, this]

/-- A cell below every listed address reads as unlisted. -/
theorem Memory.read_below (m : Memory) {a : Nat} (h : ∀ c ∈ m, a < c.1) : m.read a = unlistedByte := by
  induction m with
  | nil => rfl
  | cons c rest ih =>
    have hc := h c (by simp)
    have : c.1 ≠ a := by omega
    simp only [Memory.read, this, if_false]
    exact ih fun d hd => h d (by simp [hd])

/-- Read after write, in a canonical memory. -/
theorem Memory.read_write {m : Memory} (hm : m.wf) (a b : Nat) (v : Byte) :
    (m.write a v).read b = if b = a then v else m.read b := by
  induction m with
  | nil =>
    rcases eq_or_ne b a with rfl | hb
    · by_cases hv : v = unlistedByte <;> simp [Memory.write, Memory.read, hv]
    · by_cases hv : v = unlistedByte <;> simp [Memory.write, Memory.read, hv, hb, hb.symm]
  | cons c rest ih =>
    obtain ⟨k, w⟩ := c
    obtain ⟨hs, hc⟩ := hm
    rw [List.pairwise_cons] at hs
    have ihr := ih ⟨hs.2, fun d hd => hc d (by simp [hd])⟩
    have hrest : ∀ x, x ≤ k → Memory.read rest x = unlistedByte := fun x hx =>
      Memory.read_below rest fun d hd => lt_of_le_of_lt hx (hs.1 d hd)
    by_cases h1 : a < k
    · have hk : k ≠ a := by omega
      have hra := hrest a (by omega)
      rcases eq_or_ne b a with rfl | hb
      · by_cases hv : v = unlistedByte <;> simp [Memory.write, Memory.read, h1, hv, hk, hra]
      · by_cases hv : v = unlistedByte <;> simp [Memory.write, Memory.read, h1, hv, hb, hb.symm]
    · by_cases h2 : a = k
      · subst h2
        have hra := hrest a le_rfl
        rcases eq_or_ne b a with rfl | hb
        · by_cases hv : v = unlistedByte <;> simp [Memory.write, Memory.read, hv, hra]
        · by_cases hv : v = unlistedByte <;> simp [Memory.write, Memory.read, hv, hb, hb.symm]
      · simp only [Memory.write, h1, h2, if_false, Memory.read]
        by_cases hk : k = b
        · have : b ≠ a := by omega
          simp [hk, this]
        · simp [hk, ihr]

theorem Memory.mem_write {m : Memory} {a : Nat} {v : Byte} {c : Host.Cell} (h : c ∈ m.write a v) :
    c ∈ m ∨ (c = (a, v) ∧ v ≠ unlistedByte) := by
  induction m with
  | nil => by_cases hv : v = unlistedByte <;> simp_all [Memory.write]
  | cons d rest ih =>
    obtain ⟨k, w⟩ := d
    simp only [Memory.write] at h
    split at h
    · split at h <;> simp_all; tauto
    · split at h
      · split at h <;> simp_all; tauto
      · rcases List.mem_cons.1 h with h | h
        · simp [h]
        · rcases ih h with h | h <;> simp_all

/-- Every write to a cell keeps the canonical form. -/
theorem Memory.write_wf {m : Memory} (hm : m.wf) {a : Nat} (ha : a < memSize) (v : Byte) : (m.write a v).wf := by
  refine ⟨?_, fun c hc => ?_⟩
  · induction m with
    | nil => by_cases hv : v = unlistedByte <;> simp [Memory.write, hv]
    | cons d rest ih =>
      obtain ⟨k, w⟩ := d
      obtain ⟨hs, hc⟩ := hm
      rw [List.pairwise_cons] at hs
      have ihr := ih ⟨hs.2, fun d hd => hc d (by simp [hd])⟩
      by_cases h1 : a < k
      · by_cases hv : v = unlistedByte
        · simp [Memory.write, h1, hv, hs.2]; exact fun _ _ h => hs.1 _ h
        · simp only [Memory.write, h1, hv, if_true, if_false, List.pairwise_cons]
          refine ⟨fun x hx => ?_, hs.1, hs.2⟩
          rcases List.mem_cons.1 hx with rfl | hx
          · exact h1
          · exact lt_trans h1 (hs.1 x hx)
      · by_cases h2 : a = k
        · subst h2
          by_cases hv : v = unlistedByte
          · simp [Memory.write, hv, hs.2]
          · simp [Memory.write, hv, hs.2]; exact fun _ _ h => hs.1 _ h
        · simp only [Memory.write, h1, h2, if_false, List.pairwise_cons]
          refine ⟨fun x hx => ?_, ihr⟩
          rcases Memory.mem_write hx with hx | ⟨rfl, -⟩
          · exact hs.1 x hx
          · omega
  · rcases Memory.mem_write hc with h | ⟨rfl, h⟩
    · exact hm.2 c h
    · exact ⟨ha, h⟩

theorem Memory.nil_wf : Memory.wf [] := by decide

/-- `MemWrite` keeps the canonical form. -/
theorem memWrite_wf {m m' : Memory} (hm : m.wf) {a : Int} {v : Byte} (h : memWrite m a v = .ok m') : m'.wf := by
  unfold memWrite at h
  split at h
  · rename_i ha
    cases h
    rw [addressOk_iff] at ha
    exact Memory.write_wf hm (by simp only [memSize]; omega) v
  · cases h

theorem storeByte_wf {m : Memory} (hm : m.wf) (a : Nat) (b : Byte) : (storeByte m a b).wf := by
  unfold storeByte
  split
  · rename_i h; exact memWrite_wf hm h
  · exact hm

/-- `storeBytes`, the placing of an instruction's bytes, keeps the canonical form. -/
theorem storeBytes_wf {m : Memory} (hm : m.wf) (a : Nat) (bs : List Byte) : (storeBytes m a bs).wf := by
  induction bs generalizing m a with
  | nil => exact hm
  | cons b rest ih => exact ih (storeByte_wf hm a b) (a + 1)

end Sys2Proof.Machine
end

