-- ==== Sys2Proof/Laws/State.lean ====
section
/-! SUPPORT. One lemma per field per update of State, and the register reads of each update. -/

namespace Sys2Proof.Machine

/-! ### setReg -/

@[simp] theorem State.setReg_pc (s : State) (i : Fin 8) (v : Byte) : (s.setReg i v).pc = s.pc := rfl
@[simp] theorem State.setReg_flags (s : State) (i : Fin 8) (v : Byte) : (s.setReg i v).flags = s.flags := rfl
@[simp] theorem State.setReg_status (s : State) (i : Fin 8) (v : Byte) : (s.setReg i v).status = s.status := rfl
@[simp] theorem State.setReg_mem (s : State) (i : Fin 8) (v : Byte) : (s.setReg i v).mem = s.mem := rfl
@[simp] theorem State.setReg_out (s : State) (i : Fin 8) (v : Byte) : (s.setReg i v).out = s.out := rfl

/-! ### advance -/

@[simp] theorem State.advance_regs (s : State) (w : Nat) : (s.advance w).regs = s.regs := rfl
@[simp] theorem State.advance_pc (s : State) (w : Nat) : (s.advance w).pc = s.pc + BitVec.ofNat 9 w := rfl
@[simp] theorem State.advance_flags (s : State) (w : Nat) : (s.advance w).flags = s.flags := rfl
@[simp] theorem State.advance_status (s : State) (w : Nat) : (s.advance w).status = s.status := rfl
@[simp] theorem State.advance_mem (s : State) (w : Nat) : (s.advance w).mem = s.mem := rfl
@[simp] theorem State.advance_out (s : State) (w : Nat) : (s.advance w).out = s.out := rfl
@[simp] theorem State.advance_reg (s : State) (w : Nat) (j : Fin 8) : (s.advance w).reg j = s.reg j := rfl
@[simp] theorem State.advance_sp (s : State) (w : Nat) : (s.advance w).sp = s.sp := rfl

/-! ### jump -/

@[simp] theorem State.jump_regs (s : State) (t : Byte) : (s.jump t).regs = s.regs := rfl
@[simp] theorem State.jump_pc (s : State) (t : Byte) : (s.jump t).pc = t.setWidth 9 := rfl
@[simp] theorem State.jump_flags (s : State) (t : Byte) : (s.jump t).flags = s.flags := rfl
@[simp] theorem State.jump_status (s : State) (t : Byte) : (s.jump t).status = s.status := rfl
@[simp] theorem State.jump_mem (s : State) (t : Byte) : (s.jump t).mem = s.mem := rfl
@[simp] theorem State.jump_out (s : State) (t : Byte) : (s.jump t).out = s.out := rfl
@[simp] theorem State.jump_reg (s : State) (t : Byte) (j : Fin 8) : (s.jump t).reg j = s.reg j := rfl
@[simp] theorem State.jump_sp (s : State) (t : Byte) : (s.jump t).sp = s.sp := rfl

/-! ### emit -/

@[simp] theorem State.emit_regs (s : State) (v : Byte) : (s.emit v).regs = s.regs := rfl
@[simp] theorem State.emit_pc (s : State) (v : Byte) : (s.emit v).pc = s.pc := rfl
@[simp] theorem State.emit_flags (s : State) (v : Byte) : (s.emit v).flags = s.flags := rfl
@[simp] theorem State.emit_status (s : State) (v : Byte) : (s.emit v).status = s.status := rfl
@[simp] theorem State.emit_mem (s : State) (v : Byte) : (s.emit v).mem = s.mem := rfl
@[simp] theorem State.emit_out (s : State) (v : Byte) : (s.emit v).out = s.out ++ [v] := rfl
@[simp] theorem State.emit_reg (s : State) (v : Byte) (j : Fin 8) : (s.emit v).reg j = s.reg j := rfl
@[simp] theorem State.emit_sp (s : State) (v : Byte) : (s.emit v).sp = s.sp := rfl

/-! ### setFlags -/

@[simp] theorem State.setFlags_regs (s : State) (f : Flags) : (s.setFlags f).regs = s.regs := rfl
@[simp] theorem State.setFlags_pc (s : State) (f : Flags) : (s.setFlags f).pc = s.pc := rfl
@[simp] theorem State.setFlags_flags (s : State) (f : Flags) : (s.setFlags f).flags = f := rfl
@[simp] theorem State.setFlags_status (s : State) (f : Flags) : (s.setFlags f).status = s.status := rfl
@[simp] theorem State.setFlags_mem (s : State) (f : Flags) : (s.setFlags f).mem = s.mem := rfl
@[simp] theorem State.setFlags_out (s : State) (f : Flags) : (s.setFlags f).out = s.out := rfl
@[simp] theorem State.setFlags_reg (s : State) (f : Flags) (j : Fin 8) : (s.setFlags f).reg j = s.reg j := rfl
@[simp] theorem State.setFlags_sp (s : State) (f : Flags) : (s.setFlags f).sp = s.sp := rfl

/-! ### halt -/

@[simp] theorem State.halt_regs (s : State) : (s.halt).regs = s.regs := rfl
@[simp] theorem State.halt_pc (s : State) : (s.halt).pc = s.pc := rfl
@[simp] theorem State.halt_flags (s : State) : (s.halt).flags = s.flags := rfl
@[simp] theorem State.halt_status (s : State) : (s.halt).status = .halted := rfl
@[simp] theorem State.halt_mem (s : State) : (s.halt).mem = s.mem := rfl
@[simp] theorem State.halt_out (s : State) : (s.halt).out = s.out := rfl
@[simp] theorem State.halt_reg (s : State) (j : Fin 8) : (s.halt).reg j = s.reg j := rfl
@[simp] theorem State.halt_sp (s : State) : (s.halt).sp = s.sp := rfl

/-! ### enterFault -/

@[simp] theorem State.enterFault_regs (s : State) (op : Option Byte) (r : Raise) : (s.enterFault op r).regs = s.regs := rfl
@[simp] theorem State.enterFault_pc (s : State) (op : Option Byte) (r : Raise) : (s.enterFault op r).pc = s.pc := rfl
@[simp] theorem State.enterFault_flags (s : State) (op : Option Byte) (r : Raise) : (s.enterFault op r).flags = s.flags := rfl
@[simp] theorem State.enterFault_status (s : State) (op : Option Byte) (r : Raise) : (s.enterFault op r).status = .faulted ⟨r.cause, s.pc, op, r.info⟩ := rfl
@[simp] theorem State.enterFault_mem (s : State) (op : Option Byte) (r : Raise) : (s.enterFault op r).mem = s.mem := rfl
@[simp] theorem State.enterFault_out (s : State) (op : Option Byte) (r : Raise) : (s.enterFault op r).out = s.out := rfl
@[simp] theorem State.enterFault_reg (s : State) (op : Option Byte) (r : Raise) (j : Fin 8) : (s.enterFault op r).reg j = s.reg j := rfl
@[simp] theorem State.enterFault_sp (s : State) (op : Option Byte) (r : Raise) : (s.enterFault op r).sp = s.sp := rfl

/-! ### Register reads after a register write -/

theorem State.setReg_reg (s : State) (i j : Fin 8) (v : Byte) :
    (s.setReg i v).reg j = if j = i then v else s.reg j := by
  by_cases h : j = i
  · subst h; simp [State.reg, State.setReg, Vector.get_eq_getElem]
  · have h' : i.val ≠ j.val := fun e => h (Fin.ext e.symm)
    simp [State.reg, State.setReg, Vector.get_eq_getElem, Vector.getElem_set_ne, h, h']

@[simp] theorem State.setReg_reg_same (s : State) (i : Fin 8) (v : Byte) : (s.setReg i v).reg i = v := by
  simp [State.setReg_reg]

@[simp] theorem State.setReg_reg_ne (s : State) {i j : Fin 8} (h : j ≠ i) (v : Byte) :
    (s.setReg i v).reg j = s.reg j := by
  simp [State.setReg_reg, h]

@[simp] theorem State.setReg_spIndex_sp (s : State) (v : Byte) : (s.setReg spIndex v).sp = v := by
  simp [State.sp]

/-- Two states that agree on every register read and on the other fields are equal. -/
theorem State.ext_reg {s t : State} (hr : ∀ i, s.reg i = t.reg i) (hpc : s.pc = t.pc) (hf : s.flags = t.flags)
    (hs : s.status = t.status) (hm : s.mem = t.mem) (ho : s.out = t.out) : s = t := by
  obtain ⟨r, p, f, st, m, o⟩ := s
  obtain ⟨r', p', f', st', m', o'⟩ := t
  have : r = r' := Vector.ext fun i hi => by
    simpa [State.reg, Vector.get_eq_getElem] using hr ⟨i, hi⟩
  simp_all

/-! ### The reset state -/

@[simp] theorem State.resetWith_pc (c : Config) : (State.resetWith c).pc = 0 := rfl
@[simp] theorem State.resetWith_flags (c : Config) : (State.resetWith c).flags = ⟨false, false, false⟩ := rfl
@[simp] theorem State.resetWith_status (c : Config) : (State.resetWith c).status = .running := rfl
@[simp] theorem State.resetWith_mem (c : Config) : (State.resetWith c).mem = [] := rfl
@[simp] theorem State.resetWith_out (c : Config) : (State.resetWith c).out = [] := rfl

end Sys2Proof.Machine
end

