-- ==== Sys2Proof/Laws/Ops.lean ====
section
/-! SUPPORT. One specification lemma per shared operation of Machine/Ops.lean, Operands.lean and Alu.lean, cited in place
of unfolding it. -/

namespace Sys2Proof.Machine

/-! ### Register operands -/

@[simp] theorem regByte_toNat (i : Fin 8) : (regByte i).toNat = i.val := by
  have := i.isLt
  simp only [regByte, BitVec.toNat_ofNat]; omega

@[simp] theorem regIndex_regByte (i : Fin 8) : regIndex (regByte i) = .ok i := by
  simp [regIndex]

theorem regIndex_of_ge {r : Byte} (h : 8 ≤ r.toNat) :
    regIndex r = .error ⟨.outOfBoundsRegister, some (r.toNat : Int)⟩ := by
  simp [regIndex, Nat.not_lt.2 h]

/-- A register operand byte names a register or is 8 or more. -/
theorem regByte_or_ge (r : Byte) : (∃ i, r = regByte i) ∨ 8 ≤ r.toNat := by
  by_cases h : r.toNat < 8
  · exact .inl ⟨⟨r.toNat, h⟩, by apply BitVec.eq_of_toNat_eq; simp⟩
  · exact .inr (Nat.not_lt.1 h)

/-- Everything `regIndex` can answer. -/
theorem regIndex_cases {r : Byte} {x : Except Raise (Fin 8)} (h : regIndex r = x) :
    (∃ i, x = .ok i ∧ r = regByte i) ∨ (8 ≤ r.toNat ∧ x = .error ⟨.outOfBoundsRegister, some (r.toNat : Int)⟩) := by
  obtain ⟨i, rfl⟩ | hr := regByte_or_ge r
  · exact .inl ⟨i, by rw [← h]; simp, rfl⟩
  · exact .inr ⟨hr, by rw [← h, regIndex_of_ge hr]⟩

/-! ### The Except bind, in the two forms the meanings meet -/

@[simp] theorem bind_ok {ε α β : Type} (a : α) (f : α → Except ε β) : (Except.ok a >>= f) = f a := rfl
@[simp] theorem bind_error {ε α β : Type} (e : ε) (f : α → Except ε β) : (Except.error e >>= f) = .error e := rfl
@[simp] theorem pure_eq_ok {ε α : Type} (a : α) : (pure a : Except ε α) = .ok a := rfl

/-- A computation that ends well did so step by step. -/
theorem bind_eq_ok {ε α β : Type} {x : Except ε α} {f : α → Except ε β} {b : β} :
    x >>= f = .ok b ↔ ∃ a, x = .ok a ∧ f a = .ok b := by
  cases x <;> simp

/-! ### Stack primitives -/

theorem decSp_of_zero {s : State} (h : s.sp.toNat = 0) : s.decSp = .error ⟨.outOfBoundsMemory, some (-1)⟩ := by
  simp [State.decSp, h]

theorem decSp_of_pos {s : State} (h : 0 < s.sp.toNat) :
    s.decSp = .ok (s.setReg spIndex (BitVec.ofNat 8 (s.sp.toNat - 1))) := by
  simp [State.decSp, Nat.pos_iff_ne_zero.1 h]

theorem incSp_of_max {s : State} (h : s.sp.toNat = 255) : s.incSp = .error ⟨.outOfBoundsMemory, some 256⟩ := by
  simp [State.incSp, h]

theorem incSp_of_lt {s : State} (h : s.sp.toNat < 255) :
    s.incSp = .ok (s.setReg spIndex (BitVec.ofNat 8 (s.sp.toNat + 1))) := by
  have h' : ¬ (255 < s.sp.toNat + 1) := by omega
  simp [State.incSp, h']

@[simp] theorem storeAtSp_eq (s : State) (v : Byte) :
    s.storeAtSp v = .ok { s with mem := s.mem.write s.sp.toNat v } := by
  simp [State.storeAtSp]

@[simp] theorem loadAtSp_eq (s : State) : s.loadAtSp = .ok (s.mem.read s.sp.toNat) := by
  simp [State.loadAtSp]

/-! ### The return address of CALL -/

theorem returnAddress_of_ge {s : State} (h : 254 ≤ s.pc.toNat) :
    returnAddress s = .error ⟨.outOfBoundsMemory, some 256⟩ := by
  have : 255 < s.pc.toNat + 2 := by omega
  simp [returnAddress, this]

theorem returnAddress_of_lt {s : State} (h : s.pc.toNat < 254) :
    returnAddress s = .ok (BitVec.ofNat 8 (s.pc.toNat + 2)) := by
  have : ¬ 255 < s.pc.toNat + 2 := by omega
  simp [returnAddress, this]

/-! ### The end of an instruction -/

@[simp] theorem complete_ok (m : OpName) (s t : State) : complete m s (.ok t) = .next t := rfl

@[simp] theorem complete_error (m : OpName) (s : State) (e : Raise) :
    complete m s (.error e) = .next (s.enterFault (some m.opcode) e) := rfl

/-- An instruction's pseudocode always ends in a next state: its own, or fault entry. -/
theorem complete_cases {m : OpName} {s t : State} {r : Except Raise State} (h : complete m s r = .next t) :
    r = .ok t ∨ ∃ e, r = .error e ∧ t = s.enterFault (some m.opcode) e := by
  cases r with
  | ok u => simp only [complete_ok, Host.Outcome.next.injEq] at h; exact .inl (by rw [h])
  | error e => simp only [complete_error, Host.Outcome.next.injEq] at h; exact .inr ⟨e, rfl, h.symm⟩

/-! ### pc arithmetic -/

theorem advance_pc_toNat {s : State} {w : Nat} (h : s.pc.toNat + w < 512) :
    (s.advance w).pc.toNat = s.pc.toNat + w := by
  simp only [State.advance_pc, BitVec.toNat_add, BitVec.toNat_ofNat]; omega

@[simp] theorem jump_pc_toNat (s : State) (t : Byte) : (s.jump t).pc.toNat = t.toNat := by
  have := t.isLt
  simp only [State.jump_pc, BitVec.toNat_setWidth]; omega

/-! ### Bytes of the fetch -/

theorem bytesFrom_length_le (m : Memory) (n a : Nat) : (bytesFrom m n a).length ≤ n := by
  induction n generalizing a with
  | zero => simp [bytesFrom]
  | succ n ih =>
    by_cases h : a < 256
    · simp only [bytesFrom, memRead_of_lt m h, List.length_cons]; have := ih (a + 1); omega
    · simp [bytesFrom, memRead_of_ge m (Nat.not_lt.1 h)]

theorem bytesFrom_of_lt (m : Memory) (n : Nat) {a : Nat} (h : a < 256) :
    bytesFrom m (n + 1) a = m.read a :: bytesFrom m n (a + 1) := by
  simp [bytesFrom, memRead_of_lt m h]

theorem bytesFrom_of_ge (m : Memory) (n : Nat) {a : Nat} (h : 256 ≤ a) : bytesFrom m n a = [] := by
  cases n with
  | zero => rfl
  | succ n => simp [bytesFrom, memRead_of_ge m h]

end Sys2Proof.Machine
end

