-- ==== Sys2Proof/Laws/Exec.lean ====
section
/-! SUPPORT. What each meaning can do: one inversion lemma per instruction or shared form. Either its operands name registers,
its checks pass and the next state is the one written here, or it takes the fault of the check that fired. -/

namespace Sys2Proof.Machine

/-- Fault entry by the instruction `i` in `s`, with this cause and info (R206). -/
def FaultsWith (i : Instr) (cause : Cause) (info : Int) (s t : State) : Prop :=
  t = s.enterFault (some i.name.opcode) ⟨cause, some info⟩

/-- The register operand byte `b` of `i` is 8 or more, and `i` takes that fault (R203). -/
def RegisterFault (i : Instr) (b : Byte) (s t : State) : Prop :=
  8 ≤ b.toNat ∧ FaultsWith i .outOfBoundsRegister (b.toNat : Int) s t

/-- Every meaning is the end of a pseudocode that ran in the state it was given. -/
theorem exec_eq_complete (i : Instr) (s : State) : ∃ r, exec i s = complete i.name s r := by
  cases i with
  | nop => exact ⟨.ok (s.advance 1), rfl⟩
  | hlt => exact ⟨.ok s.halt, rfl⟩
  | _ => exact ⟨_, rfl⟩

/-- No meaning stops the machine: every arm of `exec` answers a next state. -/
theorem exec_next (i : Instr) (s : State) : ∃ t, exec i s = .next t := by
  obtain ⟨r, h⟩ := exec_eq_complete i s
  rw [h]
  cases r <;> exact ⟨_, rfl⟩

theorem execNop_eq (s : State) : execNop s = .next (s.advance 1) := rfl

theorem execHlt_eq (s : State) : execHlt s = .next s.halt := rfl

/-- The one-operand shape: a register check and then the rest. -/
theorem one_operand_cases {m : OpName} {r : Byte} {s t : State} {k : Fin 8 → Except Raise State}
    (h : complete m s (regIndex r >>= k) = .next t) :
    (∃ i, r = regByte i ∧ complete m s (k i) = .next t) ∨
    (8 ≤ r.toNat ∧ t = s.enterFault (some m.opcode) ⟨.outOfBoundsRegister, some (r.toNat : Int)⟩) := by
  obtain ⟨i, rfl⟩ | hr := regByte_or_ge r
  · exact .inl ⟨i, rfl, by simpa using h⟩
  · refine .inr ⟨hr, ?_⟩
    simpa [regIndex_of_ge hr, eq_comm] using h

theorem aluBinary_cases {m : OpName} {f : Byte → Byte → Byte} {rA rB : Byte} {s t : State}
    (h : aluBinary m f rA rB s = .next t) :
    (∃ a b, rA = regByte a ∧ rB = regByte b ∧ t = (s.setReg a (f (s.reg a) (s.reg b))).advance 3) ∨
    (8 ≤ rA.toNat ∧ t = s.enterFault (some m.opcode) ⟨.outOfBoundsRegister, some (rA.toNat : Int)⟩) ∨
    (rA.toNat < 8 ∧ 8 ≤ rB.toNat ∧
      t = s.enterFault (some m.opcode) ⟨.outOfBoundsRegister, some (rB.toNat : Int)⟩) := by
  obtain ⟨a, rfl, ha⟩ | hf := one_operand_cases h
  · obtain ⟨b, rfl, hb⟩ | hf := one_operand_cases ha
    · exact .inl ⟨a, b, rfl, rfl, (Host.Outcome.next.inj hb).symm⟩
    · exact .inr (.inr ⟨by simp, hf⟩)
  · exact .inr (.inl hf)

theorem execCmp_cases {rA rB : Byte} {s t : State} (h : execCmp rA rB s = .next t) :
    (∃ a b, rA = regByte a ∧ rB = regByte b ∧ t = (s.setFlags (compareFlags (s.reg a) (s.reg b))).advance 3) ∨
    RegisterFault (.cmp rA rB) rA s t ∨ (rA.toNat < 8 ∧ RegisterFault (.cmp rA rB) rB s t) := by
  obtain ⟨a, rfl, ha⟩ | hf := one_operand_cases h
  · obtain ⟨b, rfl, hb⟩ | hf := one_operand_cases ha
    · exact .inl ⟨a, b, rfl, rfl, (Host.Outcome.next.inj hb).symm⟩
    · exact .inr (.inr ⟨by simp, hf⟩)
  · exact .inr (.inl hf)

theorem execLdi_cases {r imm : Byte} {s t : State} (h : execLdi r imm s = .next t) :
    (∃ i, r = regByte i ∧ t = (s.setReg i imm).advance 3) ∨ RegisterFault (.ldi r imm) r s t :=
  (one_operand_cases h).imp_left fun ⟨i, hi, h⟩ => ⟨i, hi, (Host.Outcome.next.inj h).symm⟩

theorem execPrn_cases {r : Byte} {s t : State} (h : execPrn r s = .next t) :
    (∃ i, r = regByte i ∧ t = (s.emit (s.reg i)).advance 2) ∨ RegisterFault (.prn r) r s t :=
  (one_operand_cases h).imp_left fun ⟨i, hi, h⟩ => ⟨i, hi, (Host.Outcome.next.inj h).symm⟩

theorem execNot_cases {r : Byte} {s t : State} (h : execNot r s = .next t) :
    (∃ i, r = regByte i ∧ t = (s.setReg i (aluNot (s.reg i))).advance 2) ∨ RegisterFault (.not r) r s t :=
  (one_operand_cases h).imp_left fun ⟨i, hi, h⟩ => ⟨i, hi, (Host.Outcome.next.inj h).symm⟩

theorem execJmp_cases {r : Byte} {s t : State} (h : execJmp r s = .next t) :
    (∃ i, r = regByte i ∧ t = s.jump (s.reg i)) ∨ RegisterFault (.jmp r) r s t :=
  (one_operand_cases h).imp_left fun ⟨i, hi, h⟩ => ⟨i, hi, (Host.Outcome.next.inj h).symm⟩

theorem execJeq_cases {r : Byte} {s t : State} (h : execJeq r s = .next t) :
    (∃ i, r = regByte i ∧ t = if s.flags.e then s.jump (s.reg i) else s.advance 2) ∨ RegisterFault (.jeq r) r s t :=
  (one_operand_cases h).imp_left fun ⟨i, hi, h⟩ => ⟨i, hi, (Host.Outcome.next.inj h).symm⟩

theorem execJne_cases {r : Byte} {s t : State} (h : execJne r s = .next t) :
    (∃ i, r = regByte i ∧ t = if s.flags.e then s.advance 2 else s.jump (s.reg i)) ∨ RegisterFault (.jne r) r s t :=
  (one_operand_cases h).imp_left fun ⟨i, hi, h⟩ => ⟨i, hi, (Host.Outcome.next.inj h).symm⟩

/-! ### The stack forms -/

/-- Everything the SP decrement can answer. -/
theorem decSp_cases (s : State) :
    (0 < s.sp.toNat ∧ s.decSp = .ok (s.setReg spIndex (BitVec.ofNat 8 (s.sp.toNat - 1)))) ∨
    (s.sp.toNat = 0 ∧ s.decSp = .error ⟨.outOfBoundsMemory, some (-1)⟩) := by
  rcases Nat.eq_zero_or_pos s.sp.toNat with h | h
  · exact .inr ⟨h, decSp_of_zero h⟩
  · exact .inl ⟨h, decSp_of_pos h⟩

/-- Everything the SP increment can answer. -/
theorem incSp_cases (s : State) :
    (s.sp.toNat < 255 ∧ s.incSp = .ok (s.setReg spIndex (BitVec.ofNat 8 (s.sp.toNat + 1)))) ∨
    (s.sp.toNat = 255 ∧ s.incSp = .error ⟨.outOfBoundsMemory, some 256⟩) := by
  have := s.sp.isLt
  rcases Nat.lt_or_ge s.sp.toNat 255 with h | h
  · exact .inl ⟨h, incSp_of_lt h⟩
  · exact .inr ⟨by omega, incSp_of_max (by omega)⟩

/-- The state after a push: SP decremented and the byte stored where it then points. -/
def State.pushed (s : State) (v : Byte) : State :=
  let s₁ := s.setReg spIndex (BitVec.ofNat 8 (s.sp.toNat - 1))
  { s₁ with mem := s₁.mem.write s₁.sp.toNat v }

@[simp] theorem State.pushed_pc (s : State) (v : Byte) : (s.pushed v).pc = s.pc := rfl
@[simp] theorem State.pushed_flags (s : State) (v : Byte) : (s.pushed v).flags = s.flags := rfl
@[simp] theorem State.pushed_status (s : State) (v : Byte) : (s.pushed v).status = s.status := rfl
@[simp] theorem State.pushed_out (s : State) (v : Byte) : (s.pushed v).out = s.out := rfl
@[simp] theorem State.pushed_reg (s : State) (v : Byte) (k : Fin 8) :
    (s.pushed v).reg k = if k = spIndex then BitVec.ofNat 8 (s.sp.toNat - 1) else s.reg k :=
  State.setReg_reg s spIndex k _

@[simp] theorem State.pushed_sp (s : State) (v : Byte) : (s.pushed v).sp = BitVec.ofNat 8 (s.sp.toNat - 1) := by
  simp [State.sp]

theorem State.pushed_sp_toNat {s : State} (v : Byte) (h : 0 < s.sp.toNat) :
    (s.pushed v).sp.toNat = s.sp.toNat - 1 := by
  have := s.sp.isLt
  simp only [State.sp, State.pushed_reg, if_true, BitVec.toNat_ofNat] at *; omega

theorem State.pushed_mem {s : State} (v : Byte) (h : 0 < s.sp.toNat) :
    (s.pushed v).mem = s.mem.write (s.sp.toNat - 1) v := by
  have := s.sp.isLt
  have e : (s.sp.toNat - 1) % 256 = s.sp.toNat - 1 := by omega
  simp [State.pushed, e]

theorem execPush_cases {r : Byte} {s t : State} (h : execPush r s = .next t) :
    (∃ i, r = regByte i ∧ 0 < s.sp.toNat ∧
      t = (s.pushed ((s.setReg spIndex (BitVec.ofNat 8 (s.sp.toNat - 1))).reg i)).advance 2) ∨
    RegisterFault (.push r) r s t ∨
    (∃ i, r = regByte i ∧ s.sp.toNat = 0 ∧ FaultsWith (.push r) .outOfBoundsMemory (-1) s t) := by
  obtain ⟨i, rfl, hi⟩ | hf := one_operand_cases h
  · obtain ⟨hp, hd⟩ | ⟨hp, hd⟩ := decSp_cases s
    · rw [hd, bind_ok, storeAtSp_eq, bind_ok] at hi
      exact .inl ⟨i, rfl, hp, (Host.Outcome.next.inj hi).symm⟩
    · rw [hd, bind_error] at hi
      exact .inr (.inr ⟨i, rfl, hp, (Host.Outcome.next.inj hi).symm⟩)
  · exact .inr (.inl hf)

theorem execPop_cases {r : Byte} {s t : State} (h : execPop r s = .next t) :
    (∃ i s₁, r = regByte i ∧ s₁ = s.setReg i (s.mem.read s.sp.toNat) ∧ s₁.sp.toNat < 255 ∧
      t = (s₁.setReg spIndex (BitVec.ofNat 8 (s₁.sp.toNat + 1))).advance 2) ∨
    RegisterFault (.pop r) r s t ∨
    (∃ i, r = regByte i ∧ (s.setReg i (s.mem.read s.sp.toNat)).sp.toNat = 255 ∧
      FaultsWith (.pop r) .outOfBoundsMemory 256 s t) := by
  obtain ⟨i, rfl, hi⟩ | hf := one_operand_cases h
  · rw [loadAtSp_eq, bind_ok] at hi
    obtain ⟨hp, hd⟩ | ⟨hp, hd⟩ := incSp_cases (s.setReg i (s.mem.read s.sp.toNat))
    · rw [hd, bind_ok] at hi
      exact .inl ⟨i, _, rfl, rfl, hp, (Host.Outcome.next.inj hi).symm⟩
    · rw [hd, bind_error] at hi
      exact .inr (.inr ⟨i, rfl, hp, (Host.Outcome.next.inj hi).symm⟩)
  · exact .inr (.inl hf)

theorem execCall_cases {r : Byte} {s t : State} (h : execCall r s = .next t) :
    (∃ i, r = regByte i ∧ s.pc.toNat < 254 ∧ 0 < s.sp.toNat ∧
      t = (s.pushed (BitVec.ofNat 8 (s.pc.toNat + 2))).jump ((s.pushed (BitVec.ofNat 8 (s.pc.toNat + 2))).reg i)) ∨
    RegisterFault (.call r) r s t ∨
    (∃ i, r = regByte i ∧ 254 ≤ s.pc.toNat ∧ FaultsWith (.call r) .outOfBoundsMemory 256 s t) ∨
    (∃ i, r = regByte i ∧ s.pc.toNat < 254 ∧ s.sp.toNat = 0 ∧ FaultsWith (.call r) .outOfBoundsMemory (-1) s t) := by
  obtain ⟨i, rfl, hi⟩ | hf := one_operand_cases h
  · rcases Nat.lt_or_ge s.pc.toNat 254 with hpc | hpc
    · rw [returnAddress_of_lt hpc, bind_ok] at hi
      obtain ⟨hp, hd⟩ | ⟨hp, hd⟩ := decSp_cases s
      · rw [hd, bind_ok, storeAtSp_eq, bind_ok] at hi
        exact .inl ⟨i, rfl, hpc, hp, (Host.Outcome.next.inj hi).symm⟩
      · rw [hd, bind_error] at hi
        exact .inr (.inr (.inr ⟨i, rfl, hpc, hp, (Host.Outcome.next.inj hi).symm⟩))
    · rw [returnAddress_of_ge hpc, bind_error] at hi
      exact .inr (.inr (.inl ⟨i, rfl, hpc, (Host.Outcome.next.inj hi).symm⟩))
  · exact .inr (.inl hf)

theorem execRet_cases {s t : State} (h : execRet s = .next t) :
    (s.sp.toNat < 255 ∧
      t = (s.setReg spIndex (BitVec.ofNat 8 (s.sp.toNat + 1))).jump (s.mem.read s.sp.toNat)) ∨
    (s.sp.toNat = 255 ∧ FaultsWith .ret .outOfBoundsMemory 256 s t) := by
  unfold execRet at h
  rw [loadAtSp_eq, bind_ok] at h
  obtain ⟨hp, hd⟩ | ⟨hp, hd⟩ := incSp_cases s
  · rw [hd, bind_ok] at h
    exact .inl ⟨hp, (Host.Outcome.next.inj h).symm⟩
  · rw [hd, bind_error] at h
    exact .inr ⟨hp, (Host.Outcome.next.inj h).symm⟩

/-! ### All instructions at once -/

/-- An effect of `i` that is no fault. -/
inductive Effect : Instr → State → State → Prop where
  | nop (s : State) : Effect .nop s (s.advance 1)
  | hlt (s : State) : Effect .hlt s s.halt
  | ldi (s : State) (d : Fin 8) (imm : Byte) : Effect (.ldi (regByte d) imm) s ((s.setReg d imm).advance 3)
  | prn (s : State) (d : Fin 8) : Effect (.prn (regByte d)) s ((s.emit (s.reg d)).advance 2)
  | push (s : State) (d : Fin 8) (h : 0 < s.sp.toNat) : Effect (.push (regByte d)) s
      ((s.pushed ((s.setReg spIndex (BitVec.ofNat 8 (s.sp.toNat - 1))).reg d)).advance 2)
  | pop (s s₁ : State) (d : Fin 8) (h₁ : s₁ = s.setReg d (s.mem.read s.sp.toNat)) (h : s₁.sp.toNat < 255) :
      Effect (.pop (regByte d)) s ((s₁.setReg spIndex (BitVec.ofNat 8 (s₁.sp.toNat + 1))).advance 2)
  | add (s : State) (a b : Fin 8) :
      Effect (.add (regByte a) (regByte b)) s ((s.setReg a (aluAdd (s.reg a) (s.reg b))).advance 3)
  | mul (s : State) (a b : Fin 8) :
      Effect (.mul (regByte a) (regByte b)) s ((s.setReg a (aluMul (s.reg a) (s.reg b))).advance 3)
  | cmp (s : State) (a b : Fin 8) :
      Effect (.cmp (regByte a) (regByte b)) s ((s.setFlags (compareFlags (s.reg a) (s.reg b))).advance 3)
  | call (s : State) (d : Fin 8) (hpc : s.pc.toNat < 254) (h : 0 < s.sp.toNat) : Effect (.call (regByte d)) s
      ((s.pushed (BitVec.ofNat 8 (s.pc.toNat + 2))).jump ((s.pushed (BitVec.ofNat 8 (s.pc.toNat + 2))).reg d))
  | ret (s : State) (h : s.sp.toNat < 255) :
      Effect .ret s ((s.setReg spIndex (BitVec.ofNat 8 (s.sp.toNat + 1))).jump (s.mem.read s.sp.toNat))
  | jmp (s : State) (d : Fin 8) : Effect (.jmp (regByte d)) s (s.jump (s.reg d))
  | jeq (s : State) (d : Fin 8) :
      Effect (.jeq (regByte d)) s (if s.flags.e then s.jump (s.reg d) else s.advance 2)
  | jne (s : State) (d : Fin 8) :
      Effect (.jne (regByte d)) s (if s.flags.e then s.advance 2 else s.jump (s.reg d))
  | sub (s : State) (a b : Fin 8) :
      Effect (.sub (regByte a) (regByte b)) s ((s.setReg a (aluSub (s.reg a) (s.reg b))).advance 3)
  | and (s : State) (a b : Fin 8) :
      Effect (.and (regByte a) (regByte b)) s ((s.setReg a (aluAnd (s.reg a) (s.reg b))).advance 3)
  | or (s : State) (a b : Fin 8) :
      Effect (.or (regByte a) (regByte b)) s ((s.setReg a (aluOr (s.reg a) (s.reg b))).advance 3)
  | xor (s : State) (a b : Fin 8) :
      Effect (.xor (regByte a) (regByte b)) s ((s.setReg a (aluXor (s.reg a) (s.reg b))).advance 3)
  | not (s : State) (d : Fin 8) : Effect (.not (regByte d)) s ((s.setReg d (aluNot (s.reg d))).advance 2)

/-- A fault of `i`'s own checks: cause, info and the condition under which the check fires first (R203, R208). -/
inductive OwnFault : Instr → State → Cause → Int → Prop where
  | register (i : Instr) (s : State) (b : Byte) (h : i.regOperands.find? (fun b => !isRegIndex b) = some b) :
      OwnFault i s .outOfBoundsRegister (b.toNat : Int)
  | pushBound (s : State) (d : Fin 8) (h : s.sp.toNat = 0) : OwnFault (.push (regByte d)) s .outOfBoundsMemory (-1)
  | popBound (s : State) (d : Fin 8) (h : (s.setReg d (s.mem.read s.sp.toNat)).sp.toNat = 255) :
      OwnFault (.pop (regByte d)) s .outOfBoundsMemory 256
  | returnAddress (s : State) (d : Fin 8) (h : 254 ≤ s.pc.toNat) :
      OwnFault (.call (regByte d)) s .outOfBoundsMemory 256
  | callBound (s : State) (d : Fin 8) (hpc : s.pc.toNat < 254) (h : s.sp.toNat = 0) :
      OwnFault (.call (regByte d)) s .outOfBoundsMemory (-1)
  | retBound (s : State) (h : s.sp.toNat = 255) : OwnFault .ret s .outOfBoundsMemory 256

theorem isRegIndex_eq_false {b : Byte} (h : 8 ≤ b.toNat) : isRegIndex b = false := by
  simp [isRegIndex]; omega

theorem isRegIndex_eq_true {b : Byte} (h : b.toNat < 8) : isRegIndex b = true := by
  simp [isRegIndex, h]

/-- Everything an instruction can do: its effect, or fault entry for the first of its own checks that fires. -/
theorem exec_cases {i : Instr} {s t : State} (h : exec i s = .next t) :
    Effect i s t ∨ ∃ cause info, OwnFault i s cause info ∧ FaultsWith i cause info s t := by
  have one : ∀ {i : Instr} {r : Byte}, i.regOperands = [r] → RegisterFault i r s t →
      Effect i s t ∨ ∃ cause info, OwnFault i s cause info ∧ FaultsWith i cause info s t := by
    intro i r hr hf
    exact .inr ⟨_, _, .register i s r (by simp [hr, isRegIndex_eq_false hf.1]), hf.2⟩
  have two : ∀ {i : Instr} {rA rB : Byte}, i.regOperands = [rA, rB] →
      (RegisterFault i rA s t ∨ (rA.toNat < 8 ∧ RegisterFault i rB s t)) →
      Effect i s t ∨ ∃ cause info, OwnFault i s cause info ∧ FaultsWith i cause info s t := by
    rintro i rA rB hr (hf | ⟨hA, hf⟩)
    · exact .inr ⟨_, _, .register i s rA (by simp [hr, isRegIndex_eq_false hf.1]), hf.2⟩
    · exact .inr ⟨_, _, .register i s rB (by simp [hr, isRegIndex_eq_false hf.1, isRegIndex_eq_true hA]), hf.2⟩
  cases i with
  | nop => cases h; exact .inl (.nop s)
  | hlt => cases h; exact .inl (.hlt s)
  | ldi r imm =>
    obtain ⟨d, rfl, rfl⟩ | hf := execLdi_cases h
    exacts [.inl (.ldi s d imm), one rfl hf]
  | prn r =>
    obtain ⟨d, rfl, rfl⟩ | hf := execPrn_cases h
    exacts [.inl (.prn s d), one rfl hf]
  | push r =>
    obtain ⟨d, rfl, hp, rfl⟩ | hf | ⟨d, rfl, hp, hf⟩ := execPush_cases h
    exacts [.inl (.push s d hp), one rfl hf, .inr ⟨_, _, .pushBound s d hp, hf⟩]
  | pop r =>
    obtain ⟨d, s₁, rfl, h₁, hp, rfl⟩ | hf | ⟨d, rfl, hp, hf⟩ := execPop_cases h
    exacts [.inl (.pop s s₁ d h₁ hp), one rfl hf, .inr ⟨_, _, .popBound s d hp, hf⟩]
  | add rA rB =>
    obtain ⟨a, b, rfl, rfl, rfl⟩ | hf := aluBinary_cases h
    exacts [.inl (.add s a b), two rfl hf]
  | mul rA rB =>
    obtain ⟨a, b, rfl, rfl, rfl⟩ | hf := aluBinary_cases h
    exacts [.inl (.mul s a b), two rfl hf]
  | cmp rA rB =>
    obtain ⟨a, b, rfl, rfl, rfl⟩ | hf := execCmp_cases h
    exacts [.inl (.cmp s a b), two rfl hf]
  | call r =>
    obtain ⟨d, rfl, hpc, hp, rfl⟩ | hf | ⟨d, rfl, hpc, hf⟩ | ⟨d, rfl, hpc, hp, hf⟩ := execCall_cases h
    exacts [.inl (.call s d hpc hp), one rfl hf, .inr ⟨_, _, .returnAddress s d hpc, hf⟩,
      .inr ⟨_, _, .callBound s d hpc hp, hf⟩]
  | ret =>
    obtain ⟨hp, rfl⟩ | ⟨hp, hf⟩ := execRet_cases h
    exacts [.inl (.ret s hp), .inr ⟨_, _, .retBound s hp, hf⟩]
  | jmp r =>
    obtain ⟨d, rfl, rfl⟩ | hf := execJmp_cases h
    exacts [.inl (.jmp s d), one rfl hf]
  | jeq r =>
    obtain ⟨d, rfl, rfl⟩ | hf := execJeq_cases h
    exacts [.inl (.jeq s d), one rfl hf]
  | jne r =>
    obtain ⟨d, rfl, rfl⟩ | hf := execJne_cases h
    exacts [.inl (.jne s d), one rfl hf]
  | sub rA rB =>
    obtain ⟨a, b, rfl, rfl, rfl⟩ | hf := aluBinary_cases h
    exacts [.inl (.sub s a b), two rfl hf]
  | and rA rB =>
    obtain ⟨a, b, rfl, rfl, rfl⟩ | hf := aluBinary_cases h
    exacts [.inl (.and s a b), two rfl hf]
  | or rA rB =>
    obtain ⟨a, b, rfl, rfl, rfl⟩ | hf := aluBinary_cases h
    exacts [.inl (.or s a b), two rfl hf]
  | xor rA rB =>
    obtain ⟨a, b, rfl, rfl, rfl⟩ | hf := aluBinary_cases h
    exacts [.inl (.xor s a b), two rfl hf]
  | not r =>
    obtain ⟨d, rfl, rfl⟩ | hf := execNot_cases h
    exacts [.inl (.not s d), one rfl hf]

/-- The effect is what `exec` answers. -/
theorem exec_of_effect {i : Instr} {s t : State} (h : Effect i s t) : exec i s = .next t := by
  cases h with
  | nop => rfl
  | hlt => rfl
  | push _ d hp => simp [exec, execPush, decSp_of_pos hp, State.pushed]
  | pop _ s₁ d h₁ hp => subst h₁; simp [exec, execPop, incSp_of_lt hp]
  | call _ d hpc hp => simp [exec, execCall, returnAddress_of_lt hpc, decSp_of_pos hp, State.pushed]
  | ret _ hp => simp [exec, execRet, incSp_of_lt hp]
  | jeq _ d => simp only [exec, execJeq, regIndex_regByte, bind_ok, pure_eq_ok, complete_ok]; rfl
  | jne _ d => simp only [exec, execJne, regIndex_regByte, bind_ok, pure_eq_ok, complete_ok]; rfl
  | ldi _ d imm => simp [exec, execLdi]
  | prn _ d => simp [exec, execPrn]
  | cmp _ a b => simp [exec, execCmp]
  | jmp _ d => simp [exec, execJmp]
  | not _ d => simp [exec, execNot]
  | add _ a b => simp [exec, execAdd, aluBinary]
  | mul _ a b => simp [exec, execMul, aluBinary]
  | sub _ a b => simp [exec, execSub, aluBinary]
  | and _ a b => simp [exec, execAnd, aluBinary]
  | or _ a b => simp [exec, execOr, aluBinary]
  | xor _ a b => simp [exec, execXor, aluBinary]

theorem isRegIndex_eq_false_iff {b : Byte} : isRegIndex b = false ↔ 8 ≤ b.toNat := by
  simp [isRegIndex]

theorem find_bad_one {r b : Byte} (h : [r].find? (fun b => !isRegIndex b) = some b) : 8 ≤ r.toNat ∧ r = b := by
  by_cases hr : 8 ≤ r.toNat
  · simp only [List.find?_cons, isRegIndex_eq_false hr, Bool.not_false, Option.some.injEq] at h
    exact ⟨hr, h⟩
  · simp [isRegIndex_eq_true (Nat.not_le.1 hr)] at h

theorem find_bad_two {rA rB b : Byte} (h : [rA, rB].find? (fun b => !isRegIndex b) = some b) :
    (8 ≤ rA.toNat ∧ rA = b) ∨ ((∃ a, rA = regByte a) ∧ 8 ≤ rB.toNat ∧ rB = b) := by
  obtain ⟨a, rfl⟩ | hA := regByte_or_ge rA
  · have ha : isRegIndex (regByte a) = true := isRegIndex_eq_true (by simp)
    rw [List.find?_cons, ha] at h
    exact .inr ⟨⟨a, rfl⟩, find_bad_one h⟩
  · simp only [List.find?_cons, isRegIndex_eq_false hA, Bool.not_false, Option.some.injEq] at h
    exact .inl ⟨hA, h⟩

/-- The fault of an instruction's own check is what `exec` answers. -/
theorem exec_of_ownFault {i : Instr} {s : State} {cause : Cause} {info : Int} (h : OwnFault i s cause info) :
    exec i s = .next (s.enterFault (some i.name.opcode) ⟨cause, some info⟩) := by
  cases h with
  | pushBound _ d h => simp [exec, execPush, decSp_of_zero h, Instr.name]
  | popBound _ d h => simp [exec, execPop, incSp_of_max h, Instr.name]
  | returnAddress _ d h => simp [exec, execCall, returnAddress_of_ge h, Instr.name]
  | callBound _ d hpc h => simp [exec, execCall, returnAddress_of_lt hpc, decSp_of_zero h, Instr.name]
  | retBound _ h => simp [exec, execRet, incSp_of_max h, Instr.name]
  | register _ _ b h =>
    cases i with
    | nop => simp [Instr.regOperands] at h
    | hlt => simp [Instr.regOperands] at h
    | ret => simp [Instr.regOperands] at h
    | ldi r imm => obtain ⟨hr, rfl⟩ := find_bad_one h; simp [exec, execLdi, regIndex_of_ge hr, Instr.name]
    | prn r => obtain ⟨hr, rfl⟩ := find_bad_one h; simp [exec, execPrn, regIndex_of_ge hr, Instr.name]
    | push r => obtain ⟨hr, rfl⟩ := find_bad_one h; simp [exec, execPush, regIndex_of_ge hr, Instr.name]
    | pop r => obtain ⟨hr, rfl⟩ := find_bad_one h; simp [exec, execPop, regIndex_of_ge hr, Instr.name]
    | call r => obtain ⟨hr, rfl⟩ := find_bad_one h; simp [exec, execCall, regIndex_of_ge hr, Instr.name]
    | jmp r => obtain ⟨hr, rfl⟩ := find_bad_one h; simp [exec, execJmp, regIndex_of_ge hr, Instr.name]
    | jeq r => obtain ⟨hr, rfl⟩ := find_bad_one h; simp [exec, execJeq, regIndex_of_ge hr, Instr.name]
    | jne r => obtain ⟨hr, rfl⟩ := find_bad_one h; simp [exec, execJne, regIndex_of_ge hr, Instr.name]
    | not r => obtain ⟨hr, rfl⟩ := find_bad_one h; simp [exec, execNot, regIndex_of_ge hr, Instr.name]
    | cmp rA rB =>
      obtain ⟨hr, rfl⟩ | ⟨⟨a, rfl⟩, hr, rfl⟩ := find_bad_two h <;> simp [exec, execCmp, regIndex_of_ge hr, Instr.name]
    | add rA rB =>
      obtain ⟨hr, rfl⟩ | ⟨⟨a, rfl⟩, hr, rfl⟩ := find_bad_two h <;>
        simp [exec, execAdd, aluBinary, regIndex_of_ge hr, Instr.name]
    | mul rA rB =>
      obtain ⟨hr, rfl⟩ | ⟨⟨a, rfl⟩, hr, rfl⟩ := find_bad_two h <;>
        simp [exec, execMul, aluBinary, regIndex_of_ge hr, Instr.name]
    | sub rA rB =>
      obtain ⟨hr, rfl⟩ | ⟨⟨a, rfl⟩, hr, rfl⟩ := find_bad_two h <;>
        simp [exec, execSub, aluBinary, regIndex_of_ge hr, Instr.name]
    | and rA rB =>
      obtain ⟨hr, rfl⟩ | ⟨⟨a, rfl⟩, hr, rfl⟩ := find_bad_two h <;>
        simp [exec, execAnd, aluBinary, regIndex_of_ge hr, Instr.name]
    | or rA rB =>
      obtain ⟨hr, rfl⟩ | ⟨⟨a, rfl⟩, hr, rfl⟩ := find_bad_two h <;>
        simp [exec, execOr, aluBinary, regIndex_of_ge hr, Instr.name]
    | xor rA rB =>
      obtain ⟨hr, rfl⟩ | ⟨⟨a, rfl⟩, hr, rfl⟩ := find_bad_two h <;>
        simp [exec, execXor, aluBinary, regIndex_of_ge hr, Instr.name]

end Sys2Proof.Machine
end

