-- ==== Sys2Proof/Laws/Interface.lean ====
section
/-! SUPPORT. The load port: the Loader's pins do what its writes do, and fail where they fail. -/

namespace Sys2Proof.Machine

theorem loadPin_of_lt {a : Nat} (h : a < 256) (d : Byte) : loadPin a d = .ok (Pins.load (BitVec.ofNat 8 a) d) :=
  if_pos ((addressOk_iff _).2 (by omega))

theorem loadPin_of_ge {a : Nat} (h : 256 ≤ a) (d : Byte) :
    loadPin a d = .error ⟨.outOfBoundsMemory, some (a : Int)⟩ :=
  if_neg fun hok => by have := (addressOk_iff _).1 hok; omega

/-- One load with `rst` already held stores its byte in the held core, and does nothing else. -/
theorem Board.clock_load (c : Config) (s : State) {a : Nat} (h : a < 256) (d : Byte) :
    Board.clock c (Pins.load (BitVec.ofNat 8 a) d) ⟨true, s⟩ = ⟨true, { s with mem := s.mem.write a d }⟩ := by
  simp [Board.clock, Pins.load, Nat.mod_eq_of_lt h]

/-- Everything the Loader's pins can do, beside the writes they stand for: either both exist and the board ends with what
the writes store, or both fail alike. -/
theorem loadPins_cases (c : Config) (ds : List Byte) (s : State) (a : Nat) :
    (∃ ps m, loadPins a ds = .ok ps ∧ loadImage s.mem a ds = .ok m ∧
      ps.foldl (fun b p => Board.clock c p b) ⟨true, s⟩ = ⟨true, { s with mem := m }⟩) ∨
    ∃ e, loadPins a ds = .error e ∧ loadImage s.mem a ds = .error e := by
  induction ds generalizing s a with
  | nil => exact .inl ⟨[], s.mem, rfl, rfl, rfl⟩
  | cons d rest ih =>
    by_cases ha : a < 256
    · have next := ih { s with mem := s.mem.write a d } (a + 1)
      simp only [loadPins, loadImage, loadPin_of_lt ha, memWrite_of_lt _ ha, bind_ok]
      obtain ⟨ps, m, hps, hm, hrun⟩ | ⟨e, hps, hm⟩ := next
      · exact .inl ⟨_ :: ps, m, by rw [hps]; rfl, hm, by rw [List.foldl_cons, Board.clock_load c s ha]; exact hrun⟩
      · exact .inr ⟨e, by rw [hps]; rfl, hm⟩
    · refine .inr ⟨⟨.outOfBoundsMemory, some (a : Int)⟩, ?_, ?_⟩
      · rw [loadPins, loadPin_of_ge (by omega)]; rfl
      · rw [loadImage, memWrite_of_ge _ (by omega)]; rfl

/-- The Loader's writes keep the canonical form. -/
theorem loadImage_wf {m m' : Memory} (hm : m.wf) {a : Nat} {ds : List Byte} (h : loadImage m a ds = .ok m') : m'.wf := by
  induction ds generalizing m a with
  | nil => cases h; exact hm
  | cons d rest ih =>
    cases hw : memWrite m (a : Int) d with
    | ok m₁ => rw [loadImage, hw] at h; exact ih (memWrite_wf hm hw) h
    | error e => rw [loadImage, hw] at h; cases h

end Sys2Proof.Machine
end

