-- ==== Sys2Proof/Laws/PerInstr.lean ====
section
/-! SUPPORT. Statements made per instruction. EncodeLayout: an encoding is the row's opcode followed by as many operand
bytes as the row's format has. -/

/-- The layout of one instruction's encoding (R70, R73). -/
def Sys2Proof.Laws.EncodeLayout.Statement (i : Sys2Proof.Instr) : Prop :=
  ∃ rest, Sys2Proof.encode i = i.name.opcode :: rest ∧ rest.length = i.name.format.operandCount

theorem Sys2Proof.Laws.EncodeLayout.nop : Sys2Proof.Laws.EncodeLayout.Statement .nop := ⟨_, rfl, rfl⟩
theorem Sys2Proof.Laws.EncodeLayout.hlt : Sys2Proof.Laws.EncodeLayout.Statement .hlt := ⟨_, rfl, rfl⟩
theorem Sys2Proof.Laws.EncodeLayout.ldi (r imm : Sys2Proof.Byte) : Sys2Proof.Laws.EncodeLayout.Statement (.ldi r imm) := ⟨_, rfl, rfl⟩
theorem Sys2Proof.Laws.EncodeLayout.prn (r : Sys2Proof.Byte) : Sys2Proof.Laws.EncodeLayout.Statement (.prn r) := ⟨_, rfl, rfl⟩
theorem Sys2Proof.Laws.EncodeLayout.push (r : Sys2Proof.Byte) : Sys2Proof.Laws.EncodeLayout.Statement (.push r) := ⟨_, rfl, rfl⟩
theorem Sys2Proof.Laws.EncodeLayout.pop (r : Sys2Proof.Byte) : Sys2Proof.Laws.EncodeLayout.Statement (.pop r) := ⟨_, rfl, rfl⟩
theorem Sys2Proof.Laws.EncodeLayout.add (rA rB : Sys2Proof.Byte) : Sys2Proof.Laws.EncodeLayout.Statement (.add rA rB) := ⟨_, rfl, rfl⟩
theorem Sys2Proof.Laws.EncodeLayout.mul (rA rB : Sys2Proof.Byte) : Sys2Proof.Laws.EncodeLayout.Statement (.mul rA rB) := ⟨_, rfl, rfl⟩
theorem Sys2Proof.Laws.EncodeLayout.cmp (rA rB : Sys2Proof.Byte) : Sys2Proof.Laws.EncodeLayout.Statement (.cmp rA rB) := ⟨_, rfl, rfl⟩
theorem Sys2Proof.Laws.EncodeLayout.call (r : Sys2Proof.Byte) : Sys2Proof.Laws.EncodeLayout.Statement (.call r) := ⟨_, rfl, rfl⟩
theorem Sys2Proof.Laws.EncodeLayout.ret : Sys2Proof.Laws.EncodeLayout.Statement .ret := ⟨_, rfl, rfl⟩
theorem Sys2Proof.Laws.EncodeLayout.jmp (r : Sys2Proof.Byte) : Sys2Proof.Laws.EncodeLayout.Statement (.jmp r) := ⟨_, rfl, rfl⟩
theorem Sys2Proof.Laws.EncodeLayout.jeq (r : Sys2Proof.Byte) : Sys2Proof.Laws.EncodeLayout.Statement (.jeq r) := ⟨_, rfl, rfl⟩
theorem Sys2Proof.Laws.EncodeLayout.jne (r : Sys2Proof.Byte) : Sys2Proof.Laws.EncodeLayout.Statement (.jne r) := ⟨_, rfl, rfl⟩
theorem Sys2Proof.Laws.EncodeLayout.sub (rA rB : Sys2Proof.Byte) : Sys2Proof.Laws.EncodeLayout.Statement (.sub rA rB) := ⟨_, rfl, rfl⟩
theorem Sys2Proof.Laws.EncodeLayout.and (rA rB : Sys2Proof.Byte) : Sys2Proof.Laws.EncodeLayout.Statement (.and rA rB) := ⟨_, rfl, rfl⟩
theorem Sys2Proof.Laws.EncodeLayout.or (rA rB : Sys2Proof.Byte) : Sys2Proof.Laws.EncodeLayout.Statement (.or rA rB) := ⟨_, rfl, rfl⟩
theorem Sys2Proof.Laws.EncodeLayout.xor (rA rB : Sys2Proof.Byte) : Sys2Proof.Laws.EncodeLayout.Statement (.xor rA rB) := ⟨_, rfl, rfl⟩
theorem Sys2Proof.Laws.EncodeLayout.not (r : Sys2Proof.Byte) : Sys2Proof.Laws.EncodeLayout.Statement (.not r) := ⟨_, rfl, rfl⟩
end

