-- ==== Sys2Proof/Laws/Step.lean ====
section
/-! SUPPORT. What a step can do, said once. -/

namespace Sys2Proof.Machine

/-- Everything a step that answers a next state can have done. -/
theorem stepWith_cases {c : Config} {s t : State} (h : stepWith c s = .next t) :
    s.status = .running ∧
      ((∃ i rest, decode c (fetchBytes s) = .ok (i, rest) ∧ exec i s = .next t) ∨
       (∃ e, decode c (fetchBytes s) = .error e ∧
          t = s.enterFault (rejectRaise s.pc.toNat e).1 (rejectRaise s.pc.toNat e).2)) := by
  unfold stepWith at h
  cases hs : s.status with
  | halted => simp [hs] at h
  | faulted r => simp [hs] at h
  | running =>
    refine ⟨rfl, ?_⟩
    simp only [hs, fetchInstr] at h
    cases hd : decode c (fetchBytes s) with
    | ok p => simp only [hd] at h; exact .inl ⟨p.1, p.2, rfl, h⟩
    | error e => simp only [hd, Host.Outcome.next.injEq] at h; exact .inr ⟨e, rfl, h.symm⟩

/-- An invariant that holds at a state and that every step keeps holds at every state reached from it. -/
theorem Reaches.preserves {c : Config} {P : State → Prop} (hstep : ∀ s t, P s → stepWith c s = .next t → P t)
    {s t : State} (h : Reaches c s t) (hs : P s) : P t := by
  induction h with
  | refl => exact hs
  | tail _ hstep' ih => exact hstep _ _ ih hstep'

end Sys2Proof.Machine
end

