-- ==== Sys2Proof/Tests/Slice0.lean ====
section
/-! SUPPORT. Tests whose expected results come from spec/95_test_vectors.md (its id in the comment) or from the encoding tables,
and the witnesses of the obligations' hypotheses. -/

namespace Sys2Proof.Tests

open Sys2Proof.Machine

/-! ## Helpers -/

/-- A running reset state with bytes stored at `p` and pc there. -/
def at' (p : Nat) (code : List Byte) : State :=
  { State.reset with pc := BitVec.ofNat 9 p, mem := storeBytes [] p code }

/-- The same with register writes. -/
def withRegs (s : State) (rs : List (Fin 8 × Byte)) : State := rs.foldl (fun t r => t.setReg r.1 r.2) s

/-- The same with another memory. -/
def withMem (s : State) (m : Memory) : State := { s with mem := m }

/-- Read a field of the next state. -/
def after {α : Type} (r : Result) (f : State → α) : Option α :=
  match r with
  | .next t => some (f t)
  | .fault _ => none
  | .refused _ => none

/-- One ALU step with `x[0] = a` and `x[1] = b`. -/
def aluStep (code : List Byte) (a b : Byte) : Result := step (withRegs (at' 0 code) [(0, a), (1, b)])

/-- The fault a step takes: cause, opcode, info. -/
def faultOf (r : Result) : Option (Cause × Nat × Option Byte × Option Int) :=
  match r with
  | .next t => (inspectFaultRecord t).map fun f => (f.cause, f.pc.toNat, f.opcode, f.info)
  | .fault _ => none
  | .refused _ => none

/-- The document-only build (D2). -/
def noAlux : Config := { Config.reference with extAlu := false }

/-! ## Well-formedness: an ill-formed term for each check -/

theorem test_wf_first_register : Instr.wellFormed Config.reference (.add 8 0) = false := by decide
theorem test_wf_second_register : Instr.wellFormed Config.reference (.add 7 8) = false := by decide
theorem test_wf_one_register : Instr.wellFormed Config.reference (.push 0xFF) = false := by decide
theorem test_wf_extension_absent : Instr.wellFormed noAlux (.sub 0 1) = false := by decide
theorem test_wf_any_immediate : Instr.wellFormed Config.reference (.ldi 7 0xFF) = true := by decide

/-! ## Decoding: every row's word written out from R78 and R73, bit 0 the least significant bit of the first byte -/

theorem test_decode_system :
    decodeTableWord 8 0b00000000 = some .nop ∧ decodeTableWord 8 0b00000001 = some .hlt ∧
    decodeTableWord 24 0b00001000_00000011_10000010 = some (.ldi 3 8) ∧
    decodeTableWord 16 0b00000010_01000111 = some (.prn 2) := by decide

theorem test_decode_stack :
    decodeTableWord 16 0b00000101_01000101 = some (.push 5) ∧
    decodeTableWord 16 0b00000110_01000110 = some (.pop 6) := by decide

theorem test_decode_alu :
    decodeTableWord 24 0b00000010_00000001_10100000 = some (.add 1 2) ∧
    decodeTableWord 24 0b00000010_00000001_10100010 = some (.mul 1 2) ∧
    decodeTableWord 24 0b00000010_00000001_10100111 = some (.cmp 1 2) := by decide

theorem test_decode_alux :
    decodeTableWord 24 0b00000010_00000001_10100001 = some (.sub 1 2) ∧
    decodeTableWord 24 0b00000010_00000001_10101000 = some (.and 1 2) ∧
    decodeTableWord 24 0b00000010_00000001_10101010 = some (.or 1 2) ∧
    decodeTableWord 24 0b00000010_00000001_10101011 = some (.xor 1 2) ∧
    decodeTableWord 16 0b00000001_01101001 = some (.not 1) := by decide

theorem test_decode_control :
    decodeTableWord 16 0b00000001_01010000 = some (.call 1) ∧ decodeTableWord 8 0b00010001 = some .ret ∧
    decodeTableWord 16 0b00000011_01010100 = some (.jmp 3) ∧ decodeTableWord 16 0b00000011_01010101 = some (.jeq 3) ∧
    decodeTableWord 16 0b00000011_01010110 = some (.jne 3) := by decide

/-- R84: LD, ST, DIV and JGT of the wider family are illegal; T3.25: SUB without `ext_alu` is. -/
theorem test_decode_illegal :
    decodeTableWord 24 0x83 = none ∧ decodeTableWord 24 0x84 = none ∧ decodeTableWord 24 0xA3 = none ∧
    decodeTableWord 16 0x57 = none ∧ lookup noAlux 0xA1 = none ∧ lookup noAlux 0xA0 = some .add := by decide

/-- A placed word runs as the first instruction after reset. -/
theorem test_withFetchWord_runs :
    after (step (State.reset.withFetchWord 24 0xFF0382)) (fun t => ((t.reg 3).toNat, t.pc.toNat)) = some (255, 3) := by decide

/-- R87, the document's example. -/
theorem test_asm :
    [Instr.ldi 0 8, .mul 0 1, .prn 0, .hlt].map Instr.asm = ["LDI R0,8", "MUL R0,R1", "PRN R0", "HLT"] := by decide

/-! ## System and data -/

/-- T1.1. -/
theorem test_nop : after (step (at' 0 [0x00])) (fun t => t.pc.toNat) = some 1 := by decide
/-- T1.2. -/
theorem test_hlt : after (step (at' 5 [0x01])) (fun t => (t.status, t.pc.toNat)) = some (.halted, 5) := by decide
/-- T1.4: SP moved. -/
theorem test_ldi_sp : after (step (at' 0 [0x82, 0x07, 0x10])) (fun t => (t.sp.toNat, t.pc.toNat)) = some (0x10, 3) := by decide
/-- T1.5 and T1.6. -/
theorem test_ldi_faults :
    faultOf (step (at' 9 [0x82, 0x08, 0x01])) = some (.outOfBoundsRegister, 9, some 0x82, some 8) ∧
    faultOf (step (at' 254 [0x82, 0x00])) = some (.outOfBoundsMemory, 254, some 0x82, some 256) := by decide
/-- T1.8. -/
theorem test_prn_sp : after (step (at' 0 [0x47, 0x07])) (fun t => t.out.map BitVec.toNat) = some [244] := by decide
/-- T1.9 and T1.10. -/
theorem test_prn_faults :
    faultOf (step (at' 3 [0x47, 0x09])) = some (.outOfBoundsRegister, 3, some 0x47, some 9) ∧
    faultOf (step (at' 255 [0x47])) = some (.outOfBoundsMemory, 255, some 0x47, some 256) := by decide
/-- T1.11, its last step. -/
theorem test_fetch_at_256 : faultOf (step (at' 256 [])) = some (.outOfBoundsMemory, 256, none, some 256) := by decide

/-! ## Stack -/

/-- T2.2: PUSH R7 stores the decremented SP. -/
theorem test_push_sp :
    after (step (at' 0 [0x45, 0x07])) (fun t => (t.sp.toNat, (t.mem.read 0xF3).toNat)) = some (0xF3, 0xF3) := by decide
/-- T2.6 and T2.11. -/
theorem test_push_faults :
    faultOf (step (withRegs (at' 4 [0x45, 0x00]) [(7, 0)])) = some (.outOfBoundsMemory, 4, some 0x45, some (-1)) ∧
    faultOf (step (at' 4 [0x45, 0x08])) = some (.outOfBoundsRegister, 4, some 0x45, some 8) := by decide
/-- T2.4: POP R7 ends one above the popped byte. -/
theorem test_pop_sp :
    after (exec (.pop 7) (withMem (withRegs State.reset [(7, 0xF3)]) [(0xF3, 0x20)]))
      (fun t => t.sp.toNat) = some 0x21 := by decide
/-- T2.8 and T2.10: the upper bound, and no check against an empty stack. -/
theorem test_pop_bounds :
    faultOf (step (withRegs (at' 0 [0x46, 0x00]) [(7, 0xFF)])) = some (.outOfBoundsMemory, 0, some 0x46, some 256) ∧
    after (step (at' 0 [0x46, 0x03])) (fun t => ((t.reg 3).toNat, t.sp.toNat)) = some (0, 0xF5) := by decide

/-! ## ALU -/

/-- T3.1, T3.24. -/
theorem test_add :
    after (aluStep [0xA0, 0, 1] 200 100) (fun t => (t.reg 0).toNat) = some 44 ∧
    after (step (withRegs (at' 0 [0xA0, 7, 1]) [(1, 0x10)])) (fun t => t.sp.toNat) = some 0x04 := by decide
/-- T3.23: `rA` is checked first. -/
theorem test_add_checks_first : faultOf (aluStep [0xA0, 9, 8] 0 0) = some (.outOfBoundsRegister, 0, some 0xA0, some 9) := by decide
/-- T3.5, T3.6. -/
theorem test_mul :
    after (aluStep [0xA2, 0, 1] 16 16) (fun t => (t.reg 0).toNat) = some 0 ∧
    after (aluStep [0xA2, 0, 1] 255 255) (fun t => (t.reg 0).toNat) = some 1 := by decide
/-- T3.8, T3.11. -/
theorem test_cmp :
    after (aluStep [0xA7, 0, 1] 3 5) (fun t => t.flags) = some ⟨false, true, false⟩ ∧
    after (aluStep [0xA7, 0, 1] 0x80 0x7F) (fun t => t.flags) = some ⟨false, false, true⟩ := by decide
/-- T3.9. -/
theorem test_cmp_equal : after (aluStep [0xA7, 0, 1] 5 5) (fun t => t.flags) = some ⟨true, false, false⟩ := by decide
/-- T3.14, T3.15. -/
theorem test_sub :
    after (aluStep [0xA1, 0, 1] 3 5) (fun t => (t.reg 0).toNat) = some 254 ∧
    after (aluStep [0xA1, 0, 1] 0 1) (fun t => (t.reg 0).toNat) = some 255 := by decide
/-- T3.16. -/
theorem test_and : after (aluStep [0xA8, 0, 1] 0xF0 0x3C) (fun t => (t.reg 0).toNat) = some 0x30 := by decide
/-- T3.17. -/
theorem test_or : after (aluStep [0xAA, 0, 1] 0xF0 0x3C) (fun t => (t.reg 0).toNat) = some 0xFC := by decide
/-- T3.18, T3.19. -/
theorem test_xor :
    after (aluStep [0xAB, 0, 1] 0xF0 0x3C) (fun t => (t.reg 0).toNat) = some 0xCC ∧
    after (aluStep [0xAB, 0, 0] 0x77 0) (fun t => (t.reg 0).toNat) = some 0 := by decide
/-- T3.20. -/
theorem test_not : after (aluStep [0x69, 0] 0x0F 0) (fun t => ((t.reg 0).toNat, t.pc.toNat)) = some (0xF0, 2) := by decide
/-- T3.25: DecodeError without `ext_alu`. -/
theorem test_sub_absent : faultOf (stepWith noAlux (at' 0 [0xA1, 0, 1])) = some (.decodeError, 0, some 0xA1, none) := by decide

/-! ## Control transfer -/

/-- T4.9. -/
theorem test_call :
    after (step (withRegs (at' 6 [0x50, 1]) [(1, 11)])) (fun t => (t.sp.toNat, (t.mem.read 0xF3).toNat, t.pc.toNat)) =
      some (0xF3, 8, 11) := by decide
/-- T4.10, T4.12. -/
theorem test_call_corners :
    faultOf (step (at' 254 [0x50, 1])) = some (.outOfBoundsMemory, 254, some 0x50, some 256) ∧
    after (step (at' 0 [0x50, 7])) (fun t => ((t.mem.read 0xF3).toNat, t.pc.toNat)) = some (2, 0xF3) := by decide
/-- T4.14, T4.15. -/
theorem test_ret :
    faultOf (step (withRegs (at' 0 [0x11]) [(7, 0xFF)])) = some (.outOfBoundsMemory, 0, some 0x11, some 256) ∧
    after (step (at' 9 [0x11])) (fun t => (t.pc.toNat, t.sp.toNat)) = some (0, 0xF5) := by decide
/-- T4.1. -/
theorem test_jmp : after (step (withRegs (at' 0 [0x54, 3]) [(3, 12)])) (fun t => t.pc.toNat) = some 12 := by decide
/-- T4.3, T4.4. -/
theorem test_jeq :
    after (step ((withRegs (at' 12 [0x55, 2]) [(2, 20)]).setFlags ⟨true, false, false⟩)) (fun t => t.pc.toNat) = some 20 ∧
    after (step (withRegs (at' 12 [0x55, 2]) [(2, 20)])) (fun t => t.pc.toNat) = some 14 := by decide
/-- T4.7: checked though not taken. -/
theorem test_jeq_checked : faultOf (step (at' 1 [0x55, 9])) = some (.outOfBoundsRegister, 1, some 0x55, some 9) := by decide
/-- T4.5, T4.6. -/
theorem test_jne :
    after (step (withRegs (at' 20 [0x56, 3]) [(3, 12)])) (fun t => t.pc.toNat) = some 12 ∧
    after (step ((withRegs (at' 20 [0x56, 3]) [(3, 12)]).setFlags ⟨true, false, false⟩)) (fun t => t.pc.toNat) = some 22 := by
  decide

/-! ## Fault priority -/

/-- T5.1, T5.2. -/
theorem test_priority_operands :
    faultOf (step (at' 254 [0xA0, 9])) = some (.outOfBoundsMemory, 254, some 0xA0, some 256) ∧
    faultOf (step (at' 254 [0x50, 9])) = some (.outOfBoundsRegister, 254, some 0x50, some 9) := by decide
/-- T5.3, T5.4. -/
theorem test_priority_checks :
    faultOf (step (withRegs (at' 6 [0x50, 9]) [(7, 0)])) = some (.outOfBoundsRegister, 6, some 0x50, some 9) ∧
    faultOf (step (at' 255 [0xFF])) = some (.decodeError, 255, some 0xFF, none) := by decide

/-! ## Witnesses: concrete states and operands that meet the hypotheses of each obligation -/

/-- LaunchHoldsImage, OversizedImageFailsToLaunch, BootThroughLoadPortReachesLaunch: an image of full length, one over, and a released board. -/
theorem test_witness_images :
    (List.replicate 256 (0x01 : Byte)).length ≤ 256 ∧ 256 < (List.replicate 257 (0x01 : Byte)).length ∧
    (Board.mk false State.reset).rst = false ∧ (Board.mk true State.reset).rst = true ∧
    (Board.mk true State.reset).core.mem.wf := by
  exact ⟨List.length_replicate.le, by rw [List.length_replicate]; omega, rfl, rfl, by decide⟩

/-- R41: the byte at address 255 has pins, and the one after it has none. -/
theorem test_load_pins_edge :
    loadPins 255 [0x82] = .ok [Pins.load 0xFF 0x82] ∧
    loadPins 255 [0x82, 0x01] = .error ⟨.outOfBoundsMemory, some 256⟩ := by decide

/-- HostChangesStateOnlyByResetAndLoad: released pins with a load requested, held pins with and without one, a core that
steps and one that does not. -/
theorem test_witness_pins :
    (Pins.mk false true 0x10 0x20).rst = false ∧ (Pins.mk true false 0x10 0x20).loadWe = false ∧
    (Pins.load 0xFF 0x20).rst = true ∧ (Pins.load 0xFF 0x20).loadWe = true ∧ (Board.mk false (at' 5 [0x01])).core.mem.wf ∧
    after (stepWith Config.reference (at' 5 [0x01])) (fun t => t.status) = some .halted ∧
    (at' 5 [0x01]).halt.status ≠ .running := by decide

/-- HostChangesStateOnlyByResetAndLoad: a load at the moment `rst` rises goes into the reset state (log 18). -/
theorem test_load_as_rst_rises :
    (Board.clock Config.reference (Pins.load 0x03 0x20) ⟨false, at' 5 [0x01]⟩).core.mem = [(3, 0x20)] := by decide

/-- DecodingMatchesWholeOpcode, DecodeOfEncode, EncodeOfDecode: rows of both maps, operands at their extremes. -/
theorem test_witness_decode :
    OpName.inMap noAlux .add = true ∧ OpName.inMap Config.reference .sub = true ∧
    decode Config.reference [0xA1, 0xFF, 0x00, 0x7E] = .ok (.sub 0xFF 0x00, [0x7E]) := by decide

theorem test_witness_opcode_lookup : OpName.opcode .ldi = 0x82 ∧ OpName.inMap Config.reference .ldi = true := by decide

/-- IllegalOpcodeRaisesDecodeError at the last address: 0xFF is in no row. -/
theorem test_witness_illegal :
    (at' 255 [0xFF]).status = .running ∧ (at' 255 [0xFF]).pc.toNat ≤ 255 ∧
    ∀ m ∈ opRows, m.inMap Config.reference = true → m.opcode ≠ (at' 255 [0xFF]).mem.read (at' 255 [0xFF]).pc.toNat := by
  decide

/-- SequentialAdvanceByWidth: a three-byte instruction at 253, ending at 256, and a JEQ and a JNE not taken. -/
theorem test_witness_advance :
    (at' 253 []).pc.toNat ≤ 256 ∧ after (exec (.ldi 0 1) (at' 253 [])) (fun t => t.status) = some .running ∧
    (at' 253 []).flags.e = false ∧ after (exec (.jeq 0) (at' 253 [])) (fun t => t.status) = some .running ∧
    ((at' 253 []).setFlags ⟨true, false, false⟩).flags.e = true ∧
    after (exec (.jne 0) ((at' 253 []).setFlags ⟨true, false, false⟩)) (fun t => t.status) = some .running := by decide

/-- MemReadContract, MemWriteContract: the four edges, and a canonical memory. -/
theorem test_witness_memory :
    (0 ≤ (0 : Int) ∧ (0 : Int) < 256) ∧ (0 ≤ (255 : Int) ∧ (255 : Int) < 256) ∧ (-1 : Int) < 0 ∧ 256 ≤ (256 : Int) ∧
    Memory.wf [(0, 0x01), (255, 0xFF)] := by decide

/-- CanonicalMemoriesWithEqualReadsAreEqual: two canonical memories built in different orders read alike. -/
theorem test_witness_canonical :
    Memory.wf (Memory.write (Memory.write [] 9 0x05) 3 0x07) ∧ Memory.wf (Memory.write (Memory.write [] 3 0x07) 9 0x05) ∧
    Memory.write (Memory.write [] 9 0x05) 3 0x07 = Memory.write (Memory.write [] 3 0x07) 9 0x05 := by decide

/-- StatusOutputsAndExitCode: each status. -/
theorem test_witness_status :
    State.reset.status = .running ∧ State.reset.halt.status = .halted ∧
    (State.reset.enterFault (some 0xFF) ⟨.decodeError, none⟩).status = .faulted ⟨.decodeError, 0, some 0xFF, none⟩ := by decide

/-- StepRunsDecodedInstruction, LoopRunsUntilHltOrFault: a running state whose bytes decode, here to HLT at the last address. -/
theorem test_witness_step :
    (at' 255 [0x01]).status = .running ∧ decode Config.reference (fetchBytes (at' 255 [0x01])) = .ok (.hlt, []) ∧
    after (stepWith Config.reference (at' 255 [0x01])) (fun t => t.status) = some .halted := by decide

/-- StepKeepsInvariant and the invariant's users: a state with memory, a flag and pc 256. -/
theorem test_witness_invariant : State.Inv { at' 256 [] with mem := [(3, 0x01)], flags := ⟨true, false, false⟩ } where
  memWf := by decide
  pcInRange := by decide
  flagsExclusive := by unfold Flags.exclusive; decide
  recordSound := by intro r h; cases h

/-- StepKeepsInvariant: that state steps. -/
theorem test_witness_invariant_steps :
    after (step { at' 256 [] with mem := [(3, 0x01)], flags := ⟨true, false, false⟩ }) (fun t => t.pc.toNat) = some 256 := by
  decide

/-- ResetStateSatisfiesInvariant, EveryReachableStateSatisfiesInvariant, FuelReportsWhatIsReached: a launched state, and one step from it to a terminal one. -/
theorem test_witness_reaches :
    ∃ s t, launch Config.reference [0x01] = .ok s ∧ Reaches Config.reference s t ∧ t.status ≠ .running :=
  ⟨{ State.reset with mem := [(0, 0x01)] }, { State.reset with mem := [(0, 0x01)], status := .halted }, by rfl,
    .tail (.refl _) (by rfl), by decide⟩

/-- FuelReportsWhatIsReached: an end and an out of fuel. -/
theorem test_witness_fuel :
    runWith Config.reference 1 (at' 0 [0x01]) = .ended (at' 0 [0x01]).halt ∧
    runWith Config.reference 1 (at' 0 [0x00]) = .outOfFuel ((at' 0 [0x00]).advance 1) := by decide

/-- HangsAreInfiniteExecutions, second part: a JMP at 254, the last address one fits at. -/
theorem test_witness_hang :
    let s := withRegs (at' 254 [0x54, 0x03]) [(3, 254)]
    s.status = .running ∧ s.pc.toNat ≤ 254 ∧ s.mem.read s.pc.toNat = OpName.jmp.opcode ∧ s.mem.read (s.pc.toNat + 1) = regByte 3 ∧
    (s.reg 3).toNat = s.pc.toNat := by decide

/-- HangsAreInfiniteExecutions, first part: a state from which every reached state is Running. -/
theorem test_witness_never_ends (t : State)
    (h : Reaches Config.reference (withRegs (at' 3 [0x54, 0x00]) [(0, 3)]) t) : t.status = .running := by
  have hs : stepWith Config.reference (withRegs (at' 3 [0x54, 0x00]) [(0, 3)]) =
      .next (withRegs (at' 3 [0x54, 0x00]) [(0, 3)]) := by rfl
  have ht : t = withRegs (at' 3 [0x54, 0x00]) [(0, 3)] := by
    induction h with
    | refl => rfl
    | tail _ h ih => rw [ih, hs] at h; exact (Host.Outcome.next.inj h).symm
  rw [ht]; rfl

/-- TerminalStatesAreLeftOnlyByReset: a halted and a faulted board, and pins that are released. -/
theorem test_witness_terminal :
    (Board.mk false (at' 9 [0x01]).halt).core.status ≠ .running ∧
    after (step (at' 3 [0xFF])) (fun t => decide (t.status ≠ .running)) = some true ∧
    ∀ p ∈ [Pins.run, Pins.mk false true 9 9], p.rst = false := by decide

/-- HaltAndFaultsKeepMemory: a step that halts and one that faults. -/
theorem test_witness_run_ends :
    after (stepWith Config.reference (at' 255 [0x01])) (fun t => t.status) = some .halted ∧
    after (stepWith Config.reference (at' 256 [])) (fun t => decide (t.status ≠ .running)) = some true := by decide

/-- FetchSeesStackStores: P6's PUSH onto the next instruction, and a CALL whose target is its own return address's cell. -/
theorem test_witness_fetch_store :
    after (exec (.push (regByte 0)) (withRegs (at' 6 []) [(7, 9), (0, 1)]))
      (fun t => (t.status, t.sp.toNat, t.pc.toNat)) = some (.running, 8, 8) ∧
    after (exec (.call (regByte 7)) (at' 6 [])) (fun t => (t.status, decide (t.pc.toNat + 0 = t.sp.toNat))) =
      some (.running, true) ∧ (at' 6 []).mem.wf ∧ (at' 6 []).status = .running := by decide

/-- OperandFetchPastTopFaults: every width of operand fetch at its first failing address. -/
theorem test_witness_operand_fetch :
    let s := at' 254 [0xA0, 0x00]
    let t := at' 255 [0x45]
    (OpName.inMap Config.reference .add = true ∧ s.status = .running ∧ s.pc.toNat ≤ 255 ∧
      s.mem.read s.pc.toNat = OpName.opcode .add ∧ 256 < s.pc.toNat + (encode (.add 0 0)).length) ∧
    OpName.inMap Config.reference .push = true ∧ t.status = .running ∧ t.pc.toNat ≤ 255 ∧
      t.mem.read t.pc.toNat = OpName.opcode .push ∧ 256 < t.pc.toNat + (encode (.push 0)).length := by decide

/-- MemoryFaultCausesComplete: each cause at its boundary (the tests of the fetch, PUSH, POP, CALL and RET give the others). -/
theorem test_witness_memory_faults :
    (at' 256 []).pc.toNat ≤ 256 ∧
    faultOf (step (withRegs (at' 252 [0x50, 1]) [(7, 0)])) = some (.outOfBoundsMemory, 252, some 0x50, some (-1)) ∧
    faultOf (step (withRegs (at' 1 [0x46, 7]) [(7, 1)])) = none := by decide

/-- MemoryFaultCausesComplete: POP R7 of the byte 255. -/
theorem test_witness_pop_sp_255 :
    faultOf (exec (.pop 7) (withMem State.reset [(0xF4, 0xFF)])) = some (.outOfBoundsMemory, 0, some 0x46, some 256) := by decide

/-- RegisterFaultNamesFirstBadOperand: a bad second operand of value 8, and operands that are both good. -/
theorem test_witness_register_fault :
    faultOf (exec (.cmp 7 8) State.reset) = some (.outOfBoundsRegister, 0, some 0xA7, some 8) ∧
    faultOf (exec (.cmp 7 7) State.reset) = none ∧ State.reset.status = .running := by decide

/-- FaultEntryIsPrecise, UnsupportedAluOperationNeverRaised: a step that ends Faulted. -/
theorem test_witness_faulted_step :
    after (stepWith Config.reference (at' 3 [0xFF])) (fun t => t.status) =
      some (.faulted ⟨.decodeError, 3, some 0xFF, none⟩) := by decide

/-- The pc bounds of the instruction rules, met at their last value. -/
theorem test_witness_pc_bounds :
    (at' 256 []).pc.toNat ≤ 256 ∧ (at' 253 []).pc.toNat < 254 ∧ 254 ≤ (at' 254 []).pc.toNat := by decide

/-- The register-check clauses: the least bad byte, and a good first with a bad second. -/
theorem test_witness_bad_register : 8 ≤ (8 : Byte).toNat ∧ (7 : Byte).toNat < 8 ∧ 8 ≤ (255 : Byte).toNat := by decide

/-- PushStoresBelowSp, CallPushesReturnAddress: SP 0 and SP 1, with canonical memory. -/
theorem test_witness_push :
    (withRegs State.reset [(7, 0)]).sp.toNat = 0 ∧ 0 < (withRegs State.reset [(7, 1)]).sp.toNat ∧
    (withRegs State.reset [(7, 1)]).mem.wf ∧ (withRegs State.reset [(7, 1)]).pc.toNat < 254 := by decide

/-- PopLoadsAtSp, RetPopsPc: SP 255 and SP 254 for an ordinary register, popped 255 and 254 for R7. -/
theorem test_witness_pop :
    (withRegs State.reset [(7, 255)]).sp.toNat = 255 ∧ (withRegs State.reset [(7, 254)]).sp.toNat < 255 ∧
    (Memory.read [(0xF4, 255)] State.reset.sp.toNat).toNat = 255 ∧
    (Memory.read [(0xF4, 254)] State.reset.sp.toNat).toNat < 255 := by decide

/-- RetPopsPc, PushPopRoundTrip: a CALL and a PUSH that run, and the state the RET starts from. -/
theorem test_witness_call_ret :
    State.reset.mem.wf ∧ after (exec (.call 1) State.reset) (fun t => t.status) = some .running ∧
    after (exec (.push 7) State.reset) (fun t => t.status) = some .running ∧
    after (exec (.call 1) State.reset) (fun t => (t.sp.toNat, (t.mem.read 0xF3).toNat)) = some (0xF3, 2) := by decide

/-- JmpSetsPc: a register that holds the instruction's own address. -/
theorem test_witness_jmp_self : ((withRegs (at' 7 []) [(3, 7)]).reg 3).toNat = (withRegs (at' 7 []) [(3, 7)]).pc.toNat := by decide

/-- RegisterFormsFrame, OtherFormsFrame, StackFormsFrame: forms of each list run, with SP decrement allowed and refused. -/
theorem test_witness_frames :
    (after (exec (.not (regByte 7)) State.reset) fun t => t.status) = some .running ∧
    (after (exec (.jne 0) State.reset) fun t => t.status) = some .running ∧
    (after (exec (.ret) State.reset) fun t => t.status) = some .running ∧
    (after (exec (.pop (regByte 7)) State.reset) fun t => t.status) = some .running ∧
    State.reset.decSp = .ok (State.reset.setReg spIndex 0xF3) ∧
    (withRegs State.reset [(7, 0)]).decSp = .error ⟨.outOfBoundsMemory, some (-1)⟩ := by decide

/-- FlagsWrittenOnlyByCmp: a CMP that changes the flags. -/
theorem test_witness_flags_change :
    (after (exec (.cmp 0 0) State.reset) fun t => decide (t.flags ≠ State.reset.flags)) = some true := by decide

/-- PcIsDataOnlyForCall: an instruction that is no CALL. -/
theorem test_witness_not_call : ∀ r, Instr.push 3 ≠ .call r := by intro r h; cases h

/-- DataAccessesOnlyAtSp: two different canonical memories that agree at SP. -/
theorem test_witness_same_at_sp :
    Memory.read [(3, 0x01), (0xF4, 0x09)] State.reset.sp.toNat = Memory.read [(0xF4, 0x09)] State.reset.sp.toNat ∧
    Memory.wf [(3, 0x01), (0xF4, 0x09)] ∧ Memory.wf [(0xF4, 0x09)] := by decide

/-- TransferTargetsAreAddresses: each transfer taken. -/
theorem test_witness_transfers :
    (after (exec (.jeq 7) (State.reset.setFlags ⟨true, false, false⟩)) fun t => t.pc.toNat) = some 0xF4 ∧
    (after (exec (.jne 7) State.reset) fun t => t.pc.toNat) = some 0xF4 ∧
    (after (exec (.jmp 7) State.reset) fun t => t.pc.toNat) = some 0xF4 := by decide

end Sys2Proof.Tests
end

section
/-! The contract of `MemRead` (20_memory.md section 1) for every whole number as address: the laws of memory speak of
natural addresses, and here a negative one counts too. -/

namespace Sys2Proof.Machine

theorem addressOk_eq_false_iff (a : Int) : addressOk a = false ↔ a < 0 ∨ 256 ≤ a := by
  rw [← Bool.not_eq_true, addressOk_iff]
  omega

theorem memRead_of_inRange (m : Memory) {a : Int} (h0 : 0 ≤ a) (h256 : a < 256) :
    memRead m a = .ok (m.read a.toNat) := by
  have hok : addressOk a = true := (addressOk_iff a).2 ⟨h0, h256⟩
  simp [memRead, hok]

theorem memRead_of_outOfRange (m : Memory) {a : Int} (h : a < 0 ∨ 256 ≤ a) :
    memRead m a = .error ⟨.outOfBoundsMemory, some a⟩ := by
  have hbad : addressOk a = false := (addressOk_eq_false_iff a).2 h
  simp [memRead, hbad]

/-- Settles O8: the range check of `MemRead` is `0 ≤ a < 256`, and each clause is one of its answers. -/
theorem memReadContract : Obligations.MemReadContract := by
  intro m a
  exact ⟨memRead_of_inRange m, memRead_of_outOfRange m⟩

end Sys2Proof.Machine
end

section
/-! The opcode map against R80: each row's opcode states its operand count in its top two bits (R71), which is the count of
its format (R73), and an instruction has as many operand bytes as its row's format says. -/

namespace Sys2Proof

/-- R71 for the map's rows: `op[7:6]` is the operand count of the row's format. -/
theorem OpName.operandCountBits_opcode (m : OpName) : operandCountBits m.opcode = m.format.operandCount := by
  cases m <;> decide

theorem Instr.length_operandBytes (i : Instr) : i.operandBytes.length = i.name.format.operandCount := by
  cases i <;> rfl

/-- Settles O2: distinct opcodes are the map's injectivity, and the top two bits meet the operand bytes at the format's
operand count. -/
theorem opcodeMapMeetsConstraints : Obligations.OpcodeMapMeetsConstraints :=
  ⟨fun _ _ => OpName.opcode_injective, fun i => by rw [OpName.operandCountBits_opcode, Instr.length_operandBytes]⟩

end Sys2Proof
end

section
/-! The decoder's answers: what taking the operands can do, and from it that an illegal opcode is decided by the lookup
alone (R77, R83). -/

namespace Sys2Proof

/-- Everything taking a row's operands can answer: an instruction of that row, or the row's opcode with a missing operand. -/
theorem decodeOperands_cases (m : OpName) (rest : List Byte) :
    (∃ a b rest', decodeOperands m rest = .ok (m.build a b, rest')) ∨
    ∃ k, decodeOperands m rest = .error (.missingOperand m.opcode k) := by
  unfold decodeOperands
  cases m.format with
  | f0 => exact .inl ⟨0, 0, rest, rfl⟩
  | f1 =>
    match rest with
    | [] => exact .inr ⟨1, rfl⟩
    | a :: rest' => exact .inl ⟨a, 0, rest', rfl⟩
  | f2r | f2i =>
    match rest with
    | [] => exact .inr ⟨1, rfl⟩
    | [_] => exact .inr ⟨2, rfl⟩
    | a :: b :: rest' => exact .inl ⟨a, b, rest', rfl⟩

theorem decode_cons_of_lookup_none {c : Config} {op : Byte} (h : lookup c op = none) (rest : List Byte) :
    decode c (op :: rest) = .error (.illegalOpcode op) := by
  simp only [decode, h]

theorem decode_cons_of_lookup_some {c : Config} {op : Byte} {m : OpName} (h : lookup c op = some m) (rest : List Byte) :
    decode c (op :: rest) = decodeOperands m rest := by
  simp only [decode, h]

theorem decode_cons_eq_illegalOpcode_iff (c : Config) (op : Byte) (rest : List Byte) :
    decode c (op :: rest) = .error (.illegalOpcode op) ↔ lookup c op = none := by
  refine ⟨fun h => ?_, fun h => decode_cons_of_lookup_none h rest⟩
  cases hl : lookup c op with
  | none => rfl
  | some m =>
    rw [decode_cons_of_lookup_some hl] at h
    obtain ⟨a, b, rest', hd⟩ | ⟨k, hd⟩ := decodeOperands_cases m rest
    · rw [hd] at h; cases h
    · rw [hd] at h; cases h

/-- A decoded instruction is of the row the lookup found, whatever bytes follow the opcode. -/
theorem name_of_decode_cons {c : Config} {op : Byte} {m : OpName} (hl : lookup c op = some m) {rest rest' : List Byte}
    {i : Instr} (h : decode c (op :: rest) = .ok (i, rest')) : i.name = m := by
  rw [decode_cons_of_lookup_some hl] at h
  obtain ⟨a, b, rest'', hd⟩ | ⟨k, hd⟩ := decodeOperands_cases m rest
  · rw [hd] at h; cases h
    exact OpName.build_name m a b
  · rw [hd] at h; cases h

/-- Settles O3: the lookup answers the row whose opcode is the whole byte, and the decoder rejects the byte as illegal
exactly when the lookup answers none. -/
theorem decodingMatchesWholeOpcode : Obligations.DecodingMatchesWholeOpcode := by
  intro c op rest
  refine ⟨fun m hm hop i rest' h => ?_, ?_⟩
  · exact name_of_decode_cons ((lookup_eq_some_iff c op m).2 ⟨hop, hm⟩) h
  · rw [decode_cons_eq_illegalOpcode_iff, lookup_eq_none_iff]

end Sys2Proof
end

section
/-! The number of illegal opcode bytes (R83): the legal ones are the opcodes of the build's rows, each once. -/

namespace Sys2Proof

/-- The opcode bytes of the build's map, as numbers, in the map's order (R78, R79). -/
def activeOpcodes (c : Config) : List Nat := (opRows.filter fun m => m.inMap c).map fun m => m.opcode.toNat

theorem mem_activeOpcodes_iff {c : Config} {b : Nat} :
    b ∈ activeOpcodes c ↔ ∃ m : OpName, m.inMap c = true ∧ m.opcode.toNat = b := by
  simp [activeOpcodes, mem_opRows]

theorem activeOpcodes_nodup (c : Config) : (activeOpcodes c).Nodup := by
  have hrows : opRows.Nodup := by decide
  exact (hrows.filter _).map fun _ _ h => OpName.opcode_injective (BitVec.eq_of_toNat_eq h)

theorem length_activeOpcodes (c : Config) : (activeOpcodes c).length = if c.extAlu then 19 else 14 := by
  cases h : c.extAlu <;> simp [activeOpcodes, opRows, OpName.inMap, OpName.isExtension, h]

theorem lookup_isSome_iff_mem_activeOpcodes (c : Config) {b : Nat} (hb : b < 256) :
    (lookup c (BitVec.ofNat 8 b)).isSome ↔ b ∈ activeOpcodes c := by
  have hbyte (m : OpName) : m.opcode = BitVec.ofNat 8 b ↔ m.opcode.toNat = b := by
    rw [← BitVec.toNat_inj, BitVec.toNat_ofNat, Nat.mod_eq_of_lt hb]
  simp only [Option.isSome_iff_exists, lookup_eq_some_iff, mem_activeOpcodes_iff, hbyte, and_comm]

/-- The byte values the lookup finds are the active opcodes in another order. -/
theorem legalBytes_perm_activeOpcodes (c : Config) :
    ((List.range 256).filter fun b => (lookup c (BitVec.ofNat 8 b)).isSome).Perm (activeOpcodes c) := by
  refine (List.perm_ext_iff_of_nodup (List.nodup_range.filter _) (activeOpcodes_nodup c)).2 fun b => ?_
  rw [List.mem_filter, List.mem_range]
  constructor
  · rintro ⟨hb, hl⟩
    exact (lookup_isSome_iff_mem_activeOpcodes c hb).1 hl
  · intro hmem
    obtain ⟨m, -, rfl⟩ := mem_activeOpcodes_iff.1 hmem
    exact ⟨m.opcode.isLt, (lookup_isSome_iff_mem_activeOpcodes c m.opcode.isLt).2 hmem⟩

theorem length_illegalBytes (c : Config) :
    ((List.range 256).filter fun b => (lookup c (BitVec.ofNat 8 b)).isNone).length =
      if c.extAlu then 237 else 242 := by
  have hlegal := (legalBytes_perm_activeOpcodes c).length_eq.trans (length_activeOpcodes c)
  have hsplit := List.length_eq_length_filter_add (l := List.range 256)
    fun b => (lookup c (BitVec.ofNat 8 b)).isSome
  rw [List.length_range, hlegal] at hsplit
  simp only [Option.not_isSome] at hsplit
  split_ifs at hsplit ⊢ <;> omega

end Sys2Proof
end

section
/-! The step of a rejected fetch (R81, R83). -/

namespace Sys2Proof.Machine

/-- A rejected fetch makes the step fault entry with the rejection's opcode and raise. -/
theorem stepWith_of_reject {c : Config} {s : State} {e : Reject} (hs : s.status = .running)
    (hd : decode c (fetchBytes s) = .error e) :
    stepWith c s = .next (s.enterFault (rejectRaise s.pc.toNat e).1 (rejectRaise s.pc.toNat e).2) := by
  simp only [stepWith, fetchInstr, hs, hd]

theorem stepRaises_of_illegalOpcode {c : Config} {s : State} (hs : s.status = .running) (hpc : s.pc.toNat < 256)
    (hl : lookup c (s.mem.read s.pc.toNat) = none) :
    StepRaises c s .decodeError (some (s.mem.read s.pc.toNat)) none := by
  have hd : decode c (fetchBytes s) = .error (.illegalOpcode (s.mem.read s.pc.toNat)) := by
    rw [fetchBytes, bytesFrom_of_lt _ _ hpc]
    exact decode_cons_of_lookup_none hl _
  exact ⟨_, stepWith_of_reject hs hd, rfl⟩

/-- Settles O4: a byte that is no row's opcode is not found by the lookup, so the fetch is rejected with that byte; the
counts are 256 less the rows of the build. -/
theorem illegalOpcodeRaisesDecodeError : Obligations.IllegalOpcodeRaisesDecodeError := by
  refine ⟨fun c s hs hpc hop => ?_, length_illegalBytes⟩
  exact stepRaises_of_illegalOpcode hs (Nat.lt_succ_of_le hpc) ((lookup_eq_none_iff c _).2 hop)

end Sys2Proof.Machine
end

section
/-! What can raise a fault: an instruction's effect keeps the status or halts, so a step that ends Faulted is fault entry, by
one of the instruction's own checks or by a rejected fetch (R206, R208). -/

namespace Sys2Proof.Machine

/-- The status after an instruction that raised nothing: HLT's is Halted (R101), every other instruction keeps it. -/
theorem Effect.status_eq {i : Instr} {s t : State} (h : Effect i s t) :
    t.status = if i = .hlt then .halted else s.status := by
  cases h with
  | jeq _ d | jne _ d => cases s.flags.e <;> rfl
  | pop _ s₁ d h₁ hp => subst h₁; rfl
  | _ => rfl

theorem Effect.status_ne_faulted {i : Instr} {s t : State} (h : Effect i s t) (hs : s.status = .running)
    (r : FaultRecord) : t.status ≠ .faulted r := by
  rw [h.status_eq, hs]
  split <;> exact nofun

/-- Every step that ends Faulted is fault entry from the state before it: for an own check of the decoded instruction, or for
the rejection of the fetch. -/
theorem stepWith_faulted_cases {c : Config} {s t : State} {r : FaultRecord} (h : stepWith c s = .next t)
    (ht : t.status = .faulted r) :
    (∃ i rest cause info, decode c (fetchBytes s) = .ok (i, rest) ∧ OwnFault i s cause info ∧
      FaultsWith i cause info s t) ∨
    ∃ e, decode c (fetchBytes s) = .error e ∧
      t = s.enterFault (rejectRaise s.pc.toNat e).1 (rejectRaise s.pc.toNat e).2 := by
  obtain ⟨hs, ⟨i, rest, hd, hx⟩ | hreject⟩ := stepWith_cases h
  · obtain heff | ⟨cause, info, hown, hf⟩ := exec_cases hx
    · exact absurd ht (heff.status_ne_faulted hs r)
    · exact .inl ⟨i, rest, cause, info, hd, hown, hf⟩
  · exact .inr hreject

end Sys2Proof.Machine
end

section
/-! The causes a step can raise: the instructions' own checks raise the two OutOfBounds causes (R202, R203), a rejected fetch
DecodeError (R201) or OutOfBounds(memory) (R202), and nothing is left for UnsupportedALUOperation (R204). -/

namespace Sys2Proof.Machine

theorem OwnFault.cause_eq {i : Instr} {s : State} {cause : Cause} {info : Int} (h : OwnFault i s cause info) :
    cause = .outOfBoundsRegister ∨ cause = .outOfBoundsMemory := by
  cases h with
  | register => exact .inl rfl
  | pushBound | popBound | returnAddress | callBound | retBound => exact .inr rfl

theorem rejectRaise_cause_eq (p : Nat) (e : Reject) :
    (rejectRaise p e).2.cause = .decodeError ∨ (rejectRaise p e).2.cause = .outOfBoundsMemory := by
  cases e with
  | illegalOpcode op => exact .inl rfl
  | noOpcode | missingOperand op k => exact .inr rfl

theorem cause_of_enterFault {s : State} {op : Option Byte} {e : Raise} {r : FaultRecord}
    (h : (s.enterFault op e).status = .faulted r) : r.cause = e.cause := by
  cases h
  rfl

theorem stepWith_faulted_cause {c : Config} {s t : State} {r : FaultRecord} (h : stepWith c s = .next t)
    (ht : t.status = .faulted r) :
    r.cause = .decodeError ∨ r.cause = .outOfBoundsMemory ∨ r.cause = .outOfBoundsRegister := by
  obtain ⟨i, rest, cause, info, -, hown, rfl⟩ | ⟨e, -, rfl⟩ := stepWith_faulted_cases h ht
  · rw [cause_of_enterFault ht]
    exact .inr hown.cause_eq.symm
  · rw [cause_of_enterFault ht]
    exact (rejectRaise_cause_eq _ e).imp_right .inl

/-- The code of UnsupportedALUOperation is reserved: no other cause has it (R204, R205). -/
theorem Cause.eq_unsupportedAluOperation_of_code_eq {k : Cause} (h : k.code = Cause.unsupportedAluOperation.code) :
    k = .unsupportedAluOperation := by
  cases k with
  | unsupportedAluOperation => rfl
  | decodeError | outOfBoundsMemory | outOfBoundsRegister => exact absurd h (by decide)

/-- Settles O29: the causes a step can raise are the three others, and each of those has another code. -/
theorem unsupportedAluOperationNeverRaised : Obligations.UnsupportedAluOperationNeverRaised := by
  refine ⟨fun c s t r h ht hcause => ?_, fun _ => Cause.eq_unsupportedAluOperation_of_code_eq⟩
  have hraised := stepWith_faulted_cause h ht
  rw [hcause] at hraised
  exact absurd hraised (by decide)

end Sys2Proof.Machine
end

section
/-! The loop's ends (R236): a step exists exactly while Running, and only HLT or a fault leaves Running. -/

namespace Sys2Proof.Machine

theorem stepWith_of_decode {c : Config} {s : State} {i : Instr} {rest : List Byte} (hs : s.status = .running)
    (hd : decode c (fetchBytes s) = .ok (i, rest)) : stepWith c s = exec i s := by
  simp only [stepWith, fetchInstr, hs, hd]

theorem stepWith_next_iff (c : Config) (s : State) : (∃ t, stepWith c s = .next t) ↔ s.status = .running := by
  refine ⟨fun ⟨_, h⟩ => (stepWith_cases h).1, fun hs => ?_⟩
  cases hd : decode c (fetchBytes s) with
  | ok p => rw [stepWith_of_decode hs hd]; exact exec_next p.1 s
  | error e => exact ⟨_, stepWith_of_reject hs hd⟩

/-- What one instruction makes of the status Running: HLT alone halts (R101), and a check that fires faults (R206). -/
theorem status_of_exec {i : Instr} {s t : State} (hs : s.status = .running) (h : exec i s = .next t) :
    t.status = .running ∨ (t.status = .halted ∧ i = .hlt) ∨ ∃ r, t.status = .faulted r := by
  obtain heff | ⟨_, _, -, rfl⟩ := exec_cases h
  · by_cases hi : i = .hlt
    · exact .inr (.inl ⟨heff.status_eq.trans (if_pos hi), hi⟩)
    · exact .inl ((heff.status_eq.trans (if_neg hi)).trans hs)
  · exact .inr (.inr ⟨_, rfl⟩)

/-- Settles O18: every meaning and every rejection answers a next state, and of these only HLT's is Halted. -/
theorem loopRunsUntilHltOrFault : Obligations.LoopRunsUntilHltOrFault := by
  refine ⟨stepWith_next_iff, fun c s t h => ?_⟩
  obtain ⟨hs, ⟨i, rest, hd, hx⟩ | ⟨_, -, rfl⟩⟩ := stepWith_cases h
  · obtain hrun | ⟨hhalt, rfl⟩ | hfault := status_of_exec hs hx
    · exact .inl hrun
    · exact .inr (.inl ⟨hhalt, rest, hd⟩)
    · exact .inr (.inr hfault)
  · exact .inr (.inr ⟨_, rfl⟩)

end Sys2Proof.Machine
end

section
/-! Runs that never end (R239): an executor runs out of fuel on them, and a JMP to its own address is one. -/

namespace Sys2Proof.Machine

theorem runWith_succ_of_next {c : Config} {s t : State} (h : stepWith c s = .next t) (fuel : Nat) :
    runWith c (fuel + 1) s = runWith c fuel t := by
  simp only [runWith, h]

/-- Where only Running states are reached from `s`, the executor runs out of fuel from each of them, in another of them. -/
theorem runWith_outOfFuel_of_reaches {c : Config} {s : State} (hrun : ∀ t, Reaches c s t → t.status = .running)
    (fuel : Nat) {t : State} (ht : Reaches c s t) : ∃ u, runWith c fuel t = .outOfFuel u ∧ Reaches c s u := by
  induction fuel generalizing t with
  | zero => exact ⟨t, if_pos (hrun t ht), ht⟩
  | succ fuel ih =>
    obtain ⟨u, hu⟩ := (stepWith_next_iff c t).2 (hrun t ht)
    rw [runWith_succ_of_next hu]
    exact ih (ht.tail hu)

/-- From a state that steps to itself no other is reached. -/
theorem Reaches.eq_of_stepWith_self {c : Config} {s t : State} (hself : stepWith c s = .next s) (h : Reaches c s t) :
    t = s := by
  refine h.preserves (P := (· = s)) ?_ rfl
  rintro _ u rfl hu
  exact (Host.Outcome.next.inj (hself.symm.trans hu)).symm

/-- A state that steps to itself is a hang: the executor runs out of fuel in it. -/
theorem runWith_of_stepWith_self {c : Config} {s : State} (hself : stepWith c s = .next s) (fuel : Nat) :
    runWith c fuel s = .outOfFuel s := by
  have hrun : ∀ t, Reaches c s t → t.status = .running := fun t ht => by
    rw [ht.eq_of_stepWith_self hself]
    exact (stepWith_next_iff c s).1 ⟨s, hself⟩
  obtain ⟨u, hu, hreach⟩ := runWith_outOfFuel_of_reaches hrun fuel (.refl s)
  rw [hu, hreach.eq_of_stepWith_self hself]

theorem State.jump_of_eq_pc {s : State} {b : Byte} (h : b.toNat = s.pc.toNat) : s.jump b = s := by
  have hpc : (s.jump b).pc = s.pc := BitVec.eq_of_toNat_eq ((jump_pc_toNat s b).trans h)
  exact State.ext_reg (fun _ => rfl) hpc rfl rfl rfl rfl

/-- JMP is in every build's map (R79), with one operand byte (R73). -/
theorem decode_jmp (c : Config) (r : Byte) (rest : List Byte) :
    decode c (OpName.jmp.opcode :: r :: rest) = .ok (.jmp r, rest) :=
  decode_cons_of_lookup_some ((lookup_eq_some_iff c _ .jmp).2 ⟨rfl, Bool.or_true _⟩) _

theorem fetchBytes_of_le_254 {s : State} (h : s.pc.toNat ≤ 254) :
    fetchBytes s = s.mem.read s.pc.toNat :: s.mem.read (s.pc.toNat + 1) :: bytesFrom s.mem 1 (s.pc.toNat + 2) := by
  rw [fetchBytes, bytesFrom_of_lt _ _ (by omega), bytesFrom_of_lt _ _ (by omega)]

theorem stepWith_of_jmp (c : Config) {s : State} {d : Fin 8} (hs : s.status = .running) (hpc : s.pc.toNat ≤ 254)
    (hop : s.mem.read s.pc.toNat = OpName.jmp.opcode) (hr : s.mem.read (s.pc.toNat + 1) = regByte d) :
    stepWith c s = .next (s.jump (s.reg d)) := by
  have hd : decode c (fetchBytes s) = .ok (.jmp (regByte d), bytesFrom s.mem 1 (s.pc.toNat + 2)) := by
    rw [fetchBytes_of_le_254 hpc, hop, hr, decode_jmp]
  rw [stepWith_of_decode hs hd, exec_of_effect (.jmp s d)]

/-- Settles O23: a Running state always steps, so by induction on the fuel the executor never finds an end; a JMP to its own
address steps to the state it is in. -/
theorem hangsAreInfiniteExecutions : Obligations.HangsAreInfiniteExecutions := by
  refine ⟨fun c s hrun => ⟨fun t ht => ?_, fun fuel => ?_⟩, fun c s r hs hpc hop hr htarget => ?_⟩
  · exact (stepWith_next_iff c t).2 (hrun t ht)
  · exact runWith_outOfFuel_of_reaches hrun fuel (.refl s)
  · have hself : stepWith c s = .next s := by
      rw [stepWith_of_jmp c hs hpc hop hr, State.jump_of_eq_pc htarget]
    exact ⟨hself, runWith_of_stepWith_self hself⟩

end Sys2Proof.Machine
end

section
/-! Decode and encode are inverse (R70, R73, R77): a row takes as many operand bytes as its format has, and its instruction's
operand bytes are those. -/

namespace Sys2Proof

theorem lookup_opcode {c : Config} {m : OpName} (h : m.inMap c = true) : lookup c m.opcode = some m :=
  (lookup_eq_some_iff c m.opcode m).2 ⟨rfl, h⟩

theorem decodeOperands_operandBytes (i : Instr) (rest : List Byte) :
    decodeOperands i.name (i.operandBytes ++ rest) = .ok (i, rest) := by
  cases i <;> rfl

/-- A row builds from its operand bytes the instruction that has these operand bytes, and leaves the bytes after them. -/
theorem bytes_of_decodeOperands_eq_ok {m : OpName} {bytes rest : List Byte} {i : Instr}
    (h : decodeOperands m bytes = .ok (i, rest)) : bytes = i.operandBytes ++ rest := by
  cases m with
  | nop | hlt | ret => cases h; rfl
  | prn | push | pop | call | jmp | jeq | jne | not =>
    match bytes, h with
    | [], h => cases h
    | _ :: _, h => cases h; rfl
  | ldi | add | mul | cmp | sub | and | or | xor =>
    match bytes, h with
    | [], h => cases h
    | [_], h => cases h
    | _ :: _ :: _, h => cases h; rfl

/-- What decodes: the encodings of the instructions of the build's map, and nothing else. -/
theorem decode_eq_ok_iff {c : Config} {bytes rest : List Byte} {i : Instr} :
    decode c bytes = .ok (i, rest) ↔ bytes = encode i ++ rest ∧ i.name.inMap c = true := by
  constructor
  · intro h
    cases bytes with
    | nil => cases h
    | cons op operands =>
      cases hl : lookup c op with
      | none => rw [decode_cons_of_lookup_none hl] at h; cases h
      | some m =>
        obtain rfl := name_of_decode_cons hl h
        obtain ⟨rfl, hmap⟩ := (lookup_eq_some_iff c op i.name).1 hl
        rw [decode_cons_of_lookup_some hl] at h
        exact ⟨congrArg _ (bytes_of_decodeOperands_eq_ok h), hmap⟩
  · rintro ⟨rfl, hmap⟩
    rw [encode, List.cons_append, decode_cons_of_lookup_some (lookup_opcode hmap), decodeOperands_operandBytes]

/-- Settles O5: the lookup finds the instruction's row by its opcode, and the row takes back its operand bytes. -/
theorem decodeOfEncodeReturnsInstruction : Obligations.DecodeOfEncodeReturnsInstruction :=
  fun _ _ _ hmap => decode_eq_ok_iff.2 ⟨rfl, hmap⟩

/-- Settles O6: the row the lookup finds has the opcode byte, and its instruction the operand bytes it took. -/
theorem encodeOfDecodeReturnsBytes : Obligations.EncodeOfDecodeReturnsBytes :=
  fun _ _ _ _ h => decode_eq_ok_iff.1 h

/-- Settles O1: each word is one written out from the opcode map, for the decoder to read. -/
theorem opcodeWordsDecode : Obligations.OpcodeWordsDecode := by
  unfold Obligations.OpcodeWordsDecode
  decide

end Sys2Proof
end

section
/-! An instruction's width (R72), and what the decoder rejects: the missing operand byte is the one after the last byte
there is (R74). -/

namespace Sys2Proof

theorem opcodeWidth_opcode (m : OpName) : opcodeWidth m.opcode = m.format.operandCount + 1 := by
  rw [opcodeWidth, OpName.operandCountBits_opcode]

theorem length_encode (i : Instr) : (encode i).length = opcodeWidth i.name.opcode := by
  rw [encode, List.length_cons, Instr.length_operandBytes, opcodeWidth_opcode]

theorem opcodeWidth_opcode_le_three (m : OpName) : opcodeWidth m.opcode ≤ 3 := by
  cases m <;> decide

/-- A row short of operand bytes names the first missing one, and only then names one. -/
theorem decodeOperands_eq_missingOperand_iff {m : OpName} {rest : List Byte} {op : Byte} {k : Nat} :
    decodeOperands m rest = .error (.missingOperand op k) ↔
      op = m.opcode ∧ k = rest.length + 1 ∧ rest.length < m.format.operandCount := by
  unfold decodeOperands
  cases m.format with
  | f0 => simp [Format.operandCount]
  | f1 =>
    match rest with
    | [] => simp [Format.operandCount, eq_comm]
    | _ :: _ => simp [Format.operandCount]
  | f2r | f2i =>
    match rest with
    | [] | [_] => simp [Format.operandCount, eq_comm]
    | _ :: _ :: _ => simp [Format.operandCount]

/-- Everything the decoder can reject: no byte at all, an opcode that is no row's, or a row wider than the bytes. -/
theorem decode_error_cases {c : Config} {bytes : List Byte} {e : Reject} (h : decode c bytes = .error e) :
    (bytes = [] ∧ e = .noOpcode) ∨
    (∃ op rest, bytes = op :: rest ∧ e = .illegalOpcode op) ∨
    ∃ m : OpName, ∃ rest, m.inMap c = true ∧ bytes = m.opcode :: rest ∧ bytes.length < opcodeWidth m.opcode ∧
      e = .missingOperand m.opcode bytes.length := by
  cases bytes with
  | nil => cases h; exact .inl ⟨rfl, rfl⟩
  | cons op rest =>
    cases hl : lookup c op with
    | none =>
      rw [decode_cons_of_lookup_none hl] at h; cases h
      exact .inr (.inl ⟨op, rest, rfl, rfl⟩)
    | some m =>
      obtain ⟨rfl, hmap⟩ := (lookup_eq_some_iff c op m).1 hl
      rw [decode_cons_of_lookup_some hl] at h
      obtain ⟨_, _, _, hok⟩ | ⟨k, herr⟩ := decodeOperands_cases m rest
      · rw [hok] at h; cases h
      · obtain ⟨-, rfl, hshort⟩ := decodeOperands_eq_missingOperand_iff.1 herr
        rw [herr] at h; cases h
        exact .inr (.inr ⟨m, rest, hmap, rfl, by rw [opcodeWidth_opcode, List.length_cons]; omega, rfl⟩)

/-- A row wider than the bytes there are is rejected, with the number of the first missing byte. -/
theorem decode_of_lt_opcodeWidth {c : Config} {m : OpName} (hmap : m.inMap c = true) {rest : List Byte}
    (h : rest.length + 1 < opcodeWidth m.opcode) :
    decode c (m.opcode :: rest) = .error (.missingOperand m.opcode (rest.length + 1)) := by
  rw [opcodeWidth_opcode] at h
  rw [decode_cons_of_lookup_some (lookup_opcode hmap)]
  exact decodeOperands_eq_missingOperand_iff.2 ⟨rfl, rfl, by omega⟩

end Sys2Proof
end

section
/-! The bytes a step fetches (R53, R74): those at pc, pc + 1 and pc + 2 that exist. -/

namespace Sys2Proof.Machine

theorem getElem?_bytesFrom (m : Memory) (n a k : Nat) :
    (bytesFrom m n a)[k]? = if k < n ∧ a + k < 256 then some (m.read (a + k)) else none := by
  induction n generalizing a k with
  | zero => simp [bytesFrom]
  | succ n ih =>
    rcases Nat.lt_or_ge a 256 with ha | ha
    · rw [bytesFrom_of_lt m n ha]
      cases k with
      | zero => simp [ha]
      | succ k => simp [ih, Nat.add_assoc, Nat.add_comm 1 k]
    · have hout : ¬(k < n + 1 ∧ a + k < 256) := by omega
      rw [bytesFrom_of_ge m _ ha, if_neg hout, List.getElem?_nil]

theorem length_bytesFrom (m : Memory) (n a : Nat) : (bytesFrom m n a).length = min n (256 - a) := by
  induction n generalizing a with
  | zero => simp [bytesFrom]
  | succ n ih =>
    rcases Nat.lt_or_ge a 256 with ha | ha
    · rw [bytesFrom_of_lt m n ha, List.length_cons, ih]; omega
    · rw [bytesFrom_of_ge m _ ha, List.length_nil]; omega

theorem getElem?_fetchBytes (s : State) (k : Nat) :
    (fetchBytes s)[k]? = if k < 3 ∧ s.pc.toNat + k < 256 then some (s.mem.read (s.pc.toNat + k)) else none :=
  getElem?_bytesFrom s.mem 3 s.pc.toNat k

theorem length_fetchBytes (s : State) : (fetchBytes s).length = min 3 (256 - s.pc.toNat) :=
  length_bytesFrom s.mem 3 s.pc.toNat

theorem head?_fetchBytes (s : State) :
    (fetchBytes s).head? = if s.pc.toNat < 256 then some (s.mem.read s.pc.toNat) else none := by
  rw [List.head?_eq_getElem?, getElem?_fetchBytes]
  simp

/-- An instruction that was decoded lies within memory. -/
theorem pc_add_length_le_of_decode {c : Config} {s : State} {i : Instr} {rest : List Byte}
    (h : decode c (fetchBytes s) = .ok (i, rest)) : s.pc.toNat + (encode i).length ≤ 256 := by
  have hlen := congrArg List.length (decode_eq_ok_iff.1 h).1
  have hpos : 0 < (encode i).length := List.length_pos_of_ne_nil (List.cons_ne_nil _ _)
  rw [length_fetchBytes, List.length_append] at hlen
  omega

/-- Settles O17: the fetch reads byte by byte, and the step of a Running state runs what the bytes decode to. -/
theorem stepRunsDecodedInstruction : Obligations.StepRunsDecodedInstruction :=
  ⟨getElem?_fetchBytes, fun _ _ _ _ => stepWith_of_decode, fun _ _ _ => stepWith_of_decode⟩

end Sys2Proof.Machine
end

section
/-! What an instruction does to pc, memory, flags, output and registers, each said once over all instructions, those that
fault included: the fault of an own check changes the status alone (R206). -/

namespace Sys2Proof

/-- The instruction sets pc to a register or popped byte in this state (R170 to R175). -/
def Instr.Transfers (i : Instr) (s : Machine.State) : Prop :=
  match i with
  | .call _ | .ret | .jmp _ => True
  | .jeq _ => s.flags.e = true
  | .jne _ => s.flags.e = false
  | _ => False

/-- The registers an instruction's effect may write, as operand bytes: its destination, and SP for the stack forms. -/
def Instr.writtenRegs : Instr → List Byte
  | .ldi r _ | .add r _ | .mul r _ | .sub r _ | .and r _ | .or r _ | .xor r _ | .not r => [r]
  | .pop r => [r, Machine.regByte Machine.spIndex]
  | .push _ | .call _ | .ret => [Machine.regByte Machine.spIndex]
  | .nop | .hlt | .prn _ | .cmp _ _ | .jmp _ | .jeq _ | .jne _ => []

end Sys2Proof

namespace Sys2Proof.Machine

theorem jump_pc_lt (s : State) (b : Byte) : (s.jump b).pc.toNat < 256 := by
  rw [jump_pc_toNat]
  exact b.isLt

/-- The pc after an effect: the target of a taken transfer, which is a byte, or HLT's own address, or the next address. -/
theorem Effect.pc_cases {i : Instr} {s t : State} (h : Effect i s t) :
    (i.Transfers s ∧ t.pc.toNat < 256) ∨ (i = .hlt ∧ t.pc = s.pc) ∨
    (¬ i.Transfers s ∧ t.pc = s.pc + BitVec.ofNat 9 (encode i).length) := by
  cases h with
  | hlt => exact .inr (.inl ⟨rfl, rfl⟩)
  | call | ret | jmp => exact .inl ⟨trivial, jump_pc_lt _ _⟩
  | jeq _ d =>
    cases he : s.flags.e with
    | true => exact .inl ⟨he, jump_pc_lt _ _⟩
    | false => exact .inr (.inr ⟨by simp [Instr.Transfers, he], rfl⟩)
  | jne _ d =>
    cases he : s.flags.e with
    | true => exact .inr (.inr ⟨by simp [Instr.Transfers, he], rfl⟩)
    | false => exact .inl ⟨he, jump_pc_lt _ _⟩
  | pop _ s₁ d h₁ => subst h₁; exact .inr (.inr ⟨id, rfl⟩)
  | _ => exact .inr (.inr ⟨id, rfl⟩)

/-- Memory is kept, but for the byte PUSH and CALL store at SP - 1. -/
theorem exec_mem_cases {i : Instr} {s t : State} (h : exec i s = .next t) :
    t.mem = s.mem ∨
    ((∃ r, i = .push r ∨ i = .call r) ∧ 0 < s.sp.toNat ∧ ∃ v, t.mem = s.mem.write (s.sp.toNat - 1) v) := by
  obtain heff | ⟨_, _, -, rfl⟩ := exec_cases h
  · cases heff with
    | push _ d hp => exact .inr ⟨⟨_, .inl rfl⟩, hp, _, State.pushed_mem _ hp⟩
    | call _ d _ hp => exact .inr ⟨⟨_, .inr rfl⟩, hp, _, State.pushed_mem _ hp⟩
    | pop _ s₁ d h₁ => subst h₁; exact .inl rfl
    | jeq _ d | jne _ d => cases s.flags.e <;> exact .inl rfl
    | _ => exact .inl rfl
  · exact .inl rfl

/-- Flags are kept, but for CMP's, which are what its comparison gives. -/
theorem exec_flags_cases {i : Instr} {s t : State} (h : exec i s = .next t) :
    t.flags = s.flags ∨ ∃ a b, i = .cmp (regByte a) (regByte b) ∧ t.flags = compareFlags (s.reg a) (s.reg b) := by
  obtain heff | ⟨_, _, -, rfl⟩ := exec_cases h
  · cases heff with
    | cmp _ a b => exact .inr ⟨a, b, rfl, rfl⟩
    | pop _ s₁ d h₁ => subst h₁; exact .inl rfl
    | jeq _ d | jne _ d => cases s.flags.e <;> exact .inl rfl
    | _ => exact .inl rfl
  · exact .inl rfl

/-- The output is kept, but for the byte PRN appends. -/
theorem exec_out_cases {i : Instr} {s t : State} (h : exec i s = .next t) :
    t.out = s.out ∨ ∃ d, i = .prn (regByte d) ∧ t.out = s.out ++ [s.reg d] := by
  obtain heff | ⟨_, _, -, rfl⟩ := exec_cases h
  · cases heff with
    | prn _ d => exact .inr ⟨d, rfl, rfl⟩
    | pop _ s₁ d h₁ => subst h₁; exact .inl rfl
    | jeq _ d | jne _ d => cases s.flags.e <;> exact .inl rfl
    | _ => exact .inl rfl
  · exact .inl rfl

theorem ne_of_regByte_ne {k d : Fin 8} (h : regByte k ≠ regByte d) : k ≠ d := fun e => h (e ▸ rfl)

theorem exec_reg_eq {i : Instr} {s t : State} (h : exec i s = .next t) {k : Fin 8}
    (hk : regByte k ∉ i.writtenRegs) : t.reg k = s.reg k := by
  obtain heff | ⟨_, _, -, rfl⟩ := exec_cases h
  · cases heff with
    | ldi | add | mul | sub | and | or | xor | not | push | call | ret =>
      exact State.setReg_reg_ne _ (ne_of_regByte_ne (List.ne_of_not_mem_cons hk)) _
    | pop _ s₁ d h₁ =>
      subst h₁
      have hd := ne_of_regByte_ne (List.ne_of_not_mem_cons hk)
      have hsp := ne_of_regByte_ne (List.ne_of_not_mem_cons (List.not_mem_of_not_mem_cons hk))
      rw [State.advance_reg, State.setReg_reg_ne _ hsp, State.setReg_reg_ne _ hd]
    | jeq _ d | jne _ d => cases s.flags.e <;> rfl
    | _ => rfl
  · rfl

/-- The status is kept, but for a fault and for HLT. -/
theorem exec_status_cases {i : Instr} {s t : State} (h : exec i s = .next t) :
    t.status = s.status ∨ (∃ r, t.status = .faulted r) ∨ (i = .hlt ∧ t.status = .halted) := by
  obtain heff | ⟨_, _, -, rfl⟩ := exec_cases h
  · by_cases hi : i = .hlt
    · exact .inr (.inr ⟨hi, heff.status_eq.trans (if_pos hi)⟩)
    · exact .inl (heff.status_eq.trans (if_neg hi))
  · exact .inr (.inl ⟨_, rfl⟩)

/-- An instruction that ended with status Running had its effect: no check of its own fired. -/
theorem effect_of_running {i : Instr} {s t : State} (h : exec i s = .next t) (ht : t.status = .running) :
    Effect i s t := by
  obtain heff | ⟨_, _, -, rfl⟩ := exec_cases h
  · exact heff
  · cases ht

end Sys2Proof.Machine
end

section
/-! The invariant (10_state.md sections 2 to 4): canonical memory, pc in `[0, 256]`, at most one flag, a sound record. -/

namespace Sys2Proof.Machine

theorem compareFlags_exclusive (a b : Byte) : (compareFlags a b).exclusive := by
  simp only [Flags.exclusive, compareFlags, beq_iff_eq, decide_eq_true_eq]
  omega

theorem State.Inv.of_running {s : State} (hmem : s.mem.wf) (hpc : s.pc.toNat ≤ 256) (hflags : s.flags.exclusive)
    (hs : s.status = .running) : s.Inv :=
  ⟨hmem, hpc, hflags, fun r hr => by rw [hs] at hr; cases hr⟩

theorem State.resetWith_inv (c : Config) : (State.resetWith c).Inv :=
  .of_running Memory.nil_wf (Nat.zero_le _) (by simp [Flags.exclusive]) rfl

theorem launch_eq_ok_iff {c : Config} {image : List Byte} {s : State} :
    launch c image = .ok s ↔ ∃ m, loadImage [] 0 image = .ok m ∧ s = { State.resetWith c with mem := m } := by
  rw [launch, bind_eq_ok]
  simp only [pure_eq_ok, Except.ok.injEq, eq_comm, State.resetWith_mem]

theorem launch_inv {c : Config} {image : List Byte} {s : State} (h : launch c image = .ok s) : s.Inv := by
  obtain ⟨m, hm, rfl⟩ := launch_eq_ok_iff.1 h
  exact { State.resetWith_inv c with memWf := loadImage_wf Memory.nil_wf hm }

/-- Settles O19: reset lists no cell and sets no flag, and the Loader's writes keep the canonical form. -/
theorem resetStateSatisfiesInvariant : Obligations.ResetStateSatisfiesInvariant :=
  ⟨State.resetWith_inv _, State.resetWith_inv, fun _ _ _ => launch_inv⟩

/-! ### One step -/

theorem exec_mem_wf {i : Instr} {s t : State} (h : exec i s = .next t) (hm : s.mem.wf) : t.mem.wf := by
  obtain hmem | ⟨-, -, v, hmem⟩ := exec_mem_cases h
  · rwa [hmem]
  · rw [hmem]
    exact Memory.write_wf hm (lt_of_le_of_lt (Nat.sub_le _ _) s.sp.isLt) v

theorem exec_flags_exclusive {i : Instr} {s t : State} (h : exec i s = .next t) (hf : s.flags.exclusive) :
    t.flags.exclusive := by
  obtain hflags | ⟨a, b, -, hflags⟩ := exec_flags_cases h
  · rwa [hflags]
  · rw [hflags]; exact compareFlags_exclusive _ _

/-- Where the next address is at most 256, and pc is, an effect leaves pc there too. -/
theorem Effect.pc_le {i : Instr} {s t : State} (h : Effect i s t)
    (hfit : s.pc.toNat + (encode i).length ≤ 256) : t.pc.toNat ≤ 256 := by
  obtain ⟨-, hpc⟩ | ⟨-, hpc⟩ | ⟨-, hpc⟩ := h.pc_cases
  · exact hpc.le
  · rw [hpc]; omega
  · rw [hpc]
    exact (advance_pc_toNat (by omega)).trans_le hfit

/-- The record of an own check's fault is as the tables of causes say (R202, R203). -/
theorem OwnFault.record_sound {i : Instr} {s : State} {cause : Cause} {info : Int} (h : OwnFault i s cause info)
    (op : Byte) : FaultRecord.sound ⟨cause, s.pc, some op, some info⟩ s.pc := by
  cases h with
  | register _ _ b hb =>
    have hbad : 8 ≤ b.toNat := by simpa [isRegIndex] using List.find?_some hb
    exact ⟨rfl, nofun, b.toNat, rfl, hbad, Nat.le_of_lt_succ b.isLt⟩
  | pushBound | callBound => exact ⟨rfl, .inr ⟨rfl, nofun⟩⟩
  | popBound | returnAddress | retBound => exact ⟨rfl, .inl rfl⟩

/-- Everything a rejected fetch can raise, from every pc the invariant allows: the address it records is 256, the first one
outside memory (R81, R202). -/
theorem rejectRaise_cases {c : Config} {s : State} {e : Reject} (h : decode c (fetchBytes s) = .error e)
    (hpc : s.pc.toNat ≤ 256) :
    (s.pc.toNat = 256 ∧ rejectRaise s.pc.toNat e = (none, ⟨.outOfBoundsMemory, some 256⟩)) ∨
    (∃ op, rejectRaise s.pc.toNat e = (some op, ⟨.decodeError, none⟩)) ∨
    ∃ m : OpName, m.inMap c = true ∧ s.pc.toNat ≤ 255 ∧ s.mem.read s.pc.toNat = m.opcode ∧
      256 < s.pc.toNat + opcodeWidth m.opcode ∧
      rejectRaise s.pc.toNat e = (some m.opcode, ⟨.outOfBoundsMemory, some 256⟩) := by
  have hlen := length_fetchBytes s
  obtain ⟨hbytes, rfl⟩ | ⟨op, rest, -, rfl⟩ | ⟨m, rest, hmap, hbytes, hshort, rfl⟩ := decode_error_cases h
  · rw [hbytes, List.length_nil] at hlen
    have htop : s.pc.toNat = 256 := by omega
    exact .inl ⟨htop, by rw [htop]; rfl⟩
  · exact .inr (.inl ⟨op, rfl⟩)
  · have hhead := head?_fetchBytes s
    have hwidth := opcodeWidth_opcode_le_three m
    have hpos : 0 < (fetchBytes s).length := by rw [hbytes]; exact Nat.succ_pos _
    rw [if_pos (by omega), hbytes, List.head?_cons, Option.some.injEq] at hhead
    have hmissing : (s.pc.toNat : Int) + (fetchBytes s).length = 256 := by omega
    exact .inr (.inr ⟨m, hmap, by omega, hhead.symm, by omega, by rw [rejectRaise, hmissing]⟩)

/-- The record of a rejected fetch is as the tables of causes say (R201, R202). -/
theorem reject_record_sound {c : Config} {s : State} {e : Reject} (h : decode c (fetchBytes s) = .error e)
    (hpc : s.pc.toNat ≤ 256) :
    FaultRecord.sound ⟨(rejectRaise s.pc.toNat e).2.cause, s.pc, (rejectRaise s.pc.toNat e).1,
      (rejectRaise s.pc.toNat e).2.info⟩ s.pc := by
  obtain ⟨-, hr⟩ | ⟨op, hr⟩ | ⟨m, -, -, -, -, hr⟩ := rejectRaise_cases h hpc <;> rw [hr]
  · exact ⟨rfl, .inl rfl⟩
  · exact ⟨rfl, nofun, rfl⟩
  · exact ⟨rfl, .inl rfl⟩

theorem stepWith_inv {c : Config} {s t : State} (hs : s.Inv) (h : stepWith c s = .next t) : t.Inv := by
  obtain ⟨hrun, ⟨i, rest, hd, hx⟩ | ⟨e, hd, rfl⟩⟩ := stepWith_cases h
  · have hmem := exec_mem_wf hx hs.memWf
    have hflags := exec_flags_exclusive hx hs.flagsExclusive
    obtain heff | ⟨cause, info, hown, rfl⟩ := exec_cases hx
    · exact ⟨hmem, heff.pc_le (pc_add_length_le_of_decode hd), hflags,
        fun r hr => absurd hr (heff.status_ne_faulted hrun r)⟩
    · exact ⟨hmem, hs.pcInRange, hflags, fun r hr => by cases hr; exact hown.record_sound _⟩
  · exact ⟨hs.memWf, hs.pcInRange, hs.flagsExclusive, fun r hr => by
      cases hr; exact reject_record_sound hd hs.pcInRange⟩

/-- Settles O20: by what a step can do. A decoded instruction lies within memory, so pc does not pass 256, and each fault's
record is as the check that fired leaves it. -/
theorem stepKeepsInvariant : Obligations.StepKeepsInvariant :=
  ⟨fun _ _ => stepWith_inv, fun _ _ _ => stepWith_inv⟩

/-- Settles O21: the invariant holds at launch and every step keeps it. -/
theorem everyReachableStateSatisfiesInvariant : Obligations.EveryReachableStateSatisfiesInvariant :=
  fun _ _ _ _ hlaunch hreach => hreach.preserves (fun _ _ => stepWith_inv) (launch_inv hlaunch)

end Sys2Proof.Machine
end

section
/-! Where control goes next (R27, R72, R170). -/

namespace Sys2Proof.Machine

/-- Settles O7: an effect that is no transfer and no HLT advances pc by the instruction's width, which 9 bits hold. -/
theorem sequentialAdvanceByWidth : Obligations.SequentialAdvanceByWidth := by
  refine ⟨length_encode, fun i s t hpc h ht hcall hret hjmp hjeq hjne => ?_⟩
  have heff := effect_of_running h ht
  have hwidth := opcodeWidth_opcode_le_three i.name
  obtain ⟨htransfer, -⟩ | ⟨rfl, -⟩ | ⟨-, hadvance⟩ := heff.pc_cases
  · cases i with
    | call r => exact absurd rfl (hcall r)
    | ret => exact absurd rfl hret
    | jmp r => exact absurd rfl (hjmp r)
    | jeq r => exact absurd htransfer (by simp [Instr.Transfers, hjeq r rfl])
    | jne r => exact absurd htransfer (by simp [Instr.Transfers, hjne r rfl])
    | _ => exact htransfer.elim
  · rw [heff.status_eq, if_pos rfl] at ht; cases ht
  · rw [hadvance, length_encode]
    exact advance_pc_toNat (by omega)

/-- Settles O60: a taken transfer's target is a byte. -/
theorem transferTargetsAreAddresses : Obligations.TransferTargetsAreAddresses := by
  intro i s t h ht htaken
  have htransfer : i.Transfers s := by
    obtain ⟨r, rfl⟩ | rfl | ⟨r, rfl⟩ | ⟨r, rfl, he⟩ | ⟨r, rfl, he⟩ := htaken
    exacts [trivial, trivial, trivial, he, he]
  obtain ⟨-, hpc⟩ | ⟨rfl, -⟩ | ⟨hnot, -⟩ := (effect_of_running h ht).pc_cases
  · exact hpc
  · exact htransfer.elim
  · exact absurd htransfer hnot

end Sys2Proof.Machine
end

section
/-! Memory as a whole: `MemWrite` for every whole number as address, and that a canonical memory is settled by its reads. -/

namespace Sys2Proof.Machine

theorem memWrite_of_inRange (m : Memory) {a : Int} (h0 : 0 ≤ a) (h256 : a < 256) (v : Byte) :
    memWrite m a v = .ok (m.write a.toNat v) :=
  if_pos ((addressOk_iff a).2 ⟨h0, h256⟩)

theorem memWrite_of_outOfRange (m : Memory) {a : Int} (h : a < 0 ∨ 256 ≤ a) (v : Byte) :
    memWrite m a v = .error ⟨.outOfBoundsMemory, some a⟩ := by
  have hbad : addressOk a = false := (addressOk_eq_false_iff a).2 h
  simp [memWrite, hbad]

theorem memRead_write_same {m : Memory} (hm : m.wf) {a : Int} (h0 : 0 ≤ a) (h256 : a < 256) (v : Byte) :
    memRead (m.write a.toNat v) a = .ok v := by
  rw [memRead_of_inRange _ h0 h256, Memory.read_write hm, if_pos rfl]

theorem memRead_write_ne {m : Memory} (hm : m.wf) {a b : Int} (h0 : 0 ≤ a) (hb : b ≠ a) (v : Byte) :
    memRead (m.write a.toNat v) b = memRead m b := by
  by_cases hin : 0 ≤ b ∧ b < 256
  · have hne : b.toNat ≠ a.toNat := by omega
    rw [memRead_of_inRange _ hin.1 hin.2, memRead_of_inRange _ hin.1 hin.2, Memory.read_write hm, if_neg hne]
  · have hout : b < 0 ∨ 256 ≤ b := by omega
    rw [memRead_of_outOfRange _ hout, memRead_of_outOfRange _ hout]

/-- Settles O9: in range `MemWrite` is the write of one cell, for which read after write and the canonical form hold; out of
range the check fires. -/
theorem memWriteContract : Obligations.MemWriteContract := by
  refine fun m a v hm => ⟨fun h0 h256 => ?_, fun hout => memWrite_of_outOfRange m hout v⟩
  have hw := memWrite_of_inRange m h0 h256 v
  exact ⟨_, hw, memWrite_wf hm hw, memRead_write_same hm h0 h256 v, fun b hb => memRead_write_ne hm h0 hb v⟩

/-- The cells a canonical memory lists are those that do not read as unlisted. -/
theorem Memory.mem_iff_read {m : Memory} (hm : m.wf) (c : Host.Cell) :
    c ∈ m ↔ m.read c.1 = c.2 ∧ c.2 ≠ unlistedByte := by
  induction m with
  | nil => simp only [List.not_mem_nil, Memory.read, false_iff, not_and, not_not]; exact Eq.symm
  | cons d rest ih =>
    obtain ⟨hsorted, hcells⟩ := hm
    rw [List.pairwise_cons] at hsorted
    have ihr := ih ⟨hsorted.2, fun x hx => hcells x (List.mem_cons_of_mem d hx)⟩
    have hd := (hcells d List.mem_cons_self).2
    rw [List.mem_cons, Memory.read]
    split
    next hk =>
      have hrest : c ∉ rest := fun hc => (hsorted.1 c hc).ne hk
      constructor
      · rintro (rfl | hc)
        exacts [⟨rfl, hd⟩, absurd hc hrest]
      · rintro ⟨hv, -⟩
        exact .inl (Prod.ext hk.symm hv.symm)
    next hk =>
      have hne : c ≠ d := fun e => hk (e ▸ rfl)
      rw [← ihr, or_iff_right hne]

/-- A memory in canonical form reads 0 in every cell past address 255. -/
theorem Memory.read_of_ge {m : Memory} (hm : m.wf) {a : Nat} (ha : memSize ≤ a) : m.read a = unlistedByte := by
  by_contra hne
  have hc := (Memory.mem_iff_read hm (a, m.read a)).2 ⟨rfl, hne⟩
  exact absurd (hm.2 _ hc).1 (Nat.not_lt.2 ha)

theorem Memory.eq_of_read_eq {m n : Memory} (hm : m.wf) (hn : n.wf) (h : ∀ a, m.read a = n.read a) : m = n := by
  have hmem (c : Host.Cell) : c ∈ m ↔ c ∈ n := by
    rw [Memory.mem_iff_read hm, Memory.mem_iff_read hn, h]
  have hnodup {l : Memory} (hl : l.wf) : l.Nodup := hl.1.imp fun hlt e => hlt.ne (congrArg Prod.fst e)
  have hperm := (List.perm_ext_iff_of_nodup (hnodup hm) (hnodup hn)).2 hmem
  exact hperm.eq_of_pairwise (fun a b _ _ hab hba => absurd hba hab.asymm) hm.1 hn.1

/-- Settles O10: reads settle which cells are listed, and the rising addresses settle their order. -/
theorem canonicalMemoriesWithEqualReadsAreEqual : Obligations.CanonicalMemoriesWithEqualReadsAreEqual := by
  intro m n hm hn h
  refine Memory.eq_of_read_eq hm hn fun a => ?_
  rcases Nat.lt_or_ge a memSize with ha | ha
  · exact h a ha
  · rw [Memory.read_of_ge hm ha, Memory.read_of_ge hn ha]

end Sys2Proof.Machine
end

section
/-! Reset and launch (R37, R230, R231, R233): the Loader's writes fill memory from address 0 upward, and past address 255
they fail. -/

namespace Sys2Proof.Machine

theorem State.resetWith_reg_castSucc (c : Config) (k : Fin 7) :
    (State.resetWith c).reg k.castSucc = c.gprReset.get k := by
  simp [State.reg, State.resetWith, Vector.get_eq_getElem]

theorem State.resetWith_sp (c : Config) : (State.resetWith c).sp = c.spReset := by
  simp [State.sp, State.reg, State.resetWith, spIndex, Vector.get_eq_getElem]

/-- Settles O11: field by field, and the registers of the reference configuration by their values. -/
theorem resetLeavesSpecValues : Obligations.ResetLeavesSpecValues := by
  refine ⟨fun c => ?_, rfl, State.resetWith_sp _, by decide⟩
  exact ⟨State.resetWith_reg_castSucc c, State.resetWith_sp c, rfl, rfl, rfl, fun _ => rfl, rfl⟩

/-- An image that fits fills its cells and leaves every other one as it was. -/
theorem loadImage_of_fits {m : Memory} (hm : m.wf) {a : Nat} {ds : List Byte} (h : a + ds.length ≤ 256) :
    ∃ m', loadImage m a ds = .ok m' ∧ (∀ b, b < a → m'.read b = m.read b) ∧
      ∀ k, m'.read (a + k) = ds.getD k (m.read (a + k)) := by
  induction ds generalizing m a with
  | nil => exact ⟨m, rfl, fun _ _ => rfl, fun _ => rfl⟩
  | cons d rest ih =>
    rw [List.length_cons] at h
    have ha : a < 256 := by omega
    obtain ⟨m', hload, hbelow, hat⟩ := ih (Memory.write_wf hm ha d) (a := a + 1) (by omega)
    refine ⟨m', by rw [loadImage, memWrite_of_lt m ha, bind_ok, hload], fun b hb => ?_, fun k => ?_⟩
    · rw [hbelow b (by omega), Memory.read_write hm, if_neg hb.ne]
    · cases k with
      | zero => rw [Nat.add_zero, hbelow a a.lt_succ_self, Memory.read_write hm, if_pos rfl, List.getD_cons_zero]
      | succ k =>
        have hne : a + (k + 1) ≠ a := by omega
        have hk := hat k
        rw [Nat.add_assoc, Nat.add_comm 1 k, Memory.read_write hm, if_neg hne] at hk
        rw [hk, List.getD_cons_succ]

/-- The first byte past address 255 fails the write contract, and with it the load (R41, R52). -/
theorem loadImage_of_exceeds {m : Memory} {a : Nat} {ds : List Byte} (ha : a ≤ 256) (h : 256 < a + ds.length) :
    loadImage m a ds = .error ⟨.outOfBoundsMemory, some 256⟩ := by
  induction ds generalizing m a with
  | nil => rw [List.length_nil] at h; omega
  | cons d rest ih =>
    rw [List.length_cons] at h
    rw [loadImage]
    rcases ha.lt_or_eq with hlt | rfl
    · rw [memWrite_of_lt m hlt, bind_ok]
      exact ih hlt (by omega)
    · rw [memWrite_of_ge m le_rfl, bind_error]
      rfl

theorem launch_of_fits (c : Config) {image : List Byte} (h : image.length ≤ 256) :
    ∃ m, loadImage [] 0 image = .ok m ∧ launch c image = .ok { State.resetWith c with mem := m } ∧
      ∀ a, m.read a = image.getD a 0 := by
  obtain ⟨m, hload, -, hat⟩ := loadImage_of_fits Memory.nil_wf (a := 0) (ds := image) (by omega)
  refine ⟨m, hload, launch_eq_ok_iff.2 ⟨m, hload, rfl⟩, fun a => ?_⟩
  have ha := hat a
  rwa [Nat.zero_add] at ha

/-- Settles O12: the writes fill an empty memory with the image, and launch changes nothing but memory. -/
theorem launchHoldsImage : Obligations.LaunchHoldsImage := by
  intro c image h
  obtain ⟨m, -, hlaunch, hread⟩ := launch_of_fits c h
  exact ⟨_, hlaunch, hread, rfl, rfl, rfl, rfl, rfl⟩

/-- Settles O13: the writes fail at the 257th byte, and the pins fail as the writes do. -/
theorem oversizedImageFailsToLaunch : Obligations.OversizedImageFailsToLaunch := by
  intro c image h
  have hload : loadImage (State.resetWith c).mem 0 image = .error ⟨.outOfBoundsMemory, some 256⟩ :=
    loadImage_of_exceeds (Nat.zero_le _) (by omega)
  refine ⟨by rw [launch, hload, bind_error], ?_⟩
  obtain ⟨_, m, -, hm, -⟩ | ⟨e, hpins, he⟩ := loadPins_cases c image (State.resetWith c) 0
  · rw [hload] at hm; cases hm
  · rw [hload] at he; cases he
    exact hpins

end Sys2Proof.Machine
end

section
/-! The board under its pins (R40, R41, R44, R231). -/

namespace Sys2Proof.Machine

theorem Board.clock_of_next {c : Config} {p : Pins} (hp : p.rst = false) {b : Board} {t : State}
    (h : stepWith c b.core = .next t) : b.clock c p = ⟨false, t⟩ := by
  simp [Board.clock, hp, h]

theorem stepWith_ne_next {c : Config} {s : State} (hs : s.status ≠ .running) (t : State) : stepWith c s ≠ .next t :=
  fun h => hs (stepWith_cases h).1

/-- With `rst` released, a terminal core stays as it is (R236). -/
theorem Board.clock_of_terminal (c : Config) {p : Pins} (hp : p.rst = false) {b : Board}
    (hb : b.core.status ≠ .running) : b.clock c p = ⟨false, b.core⟩ := by
  have hstop := stepWith_ne_next (c := c) hb
  cases h : stepWith c b.core with
  | next t => exact absurd h (hstop t)
  | fault | refused => simp [Board.clock, hp, h]

theorem Board.core_foldl_clock_of_terminal (c : Config) {ps : List Pins} (hps : ∀ p ∈ ps, p.rst = false) {b : Board}
    (hb : b.core.status ≠ .running) : (ps.foldl (fun b' p => b'.clock c p) b).core = b.core := by
  induction ps generalizing b with
  | nil => rfl
  | cons p rest ih =>
    have hclock := Board.clock_of_terminal c (hps p List.mem_cons_self) hb
    have hrest := ih (fun q hq => hps q (List.mem_cons_of_mem p hq)) (b := b.clock c p) (by rwa [hclock])
    rw [List.foldl_cons, hrest, hclock]

/-- With `rst` asserted and `load_we` low, a board that was held stays as it is, and another one is reset (R44). -/
theorem Board.clock_of_rst_idle (c : Config) {p : Pins} (hp : p.rst = true) (hw : p.loadWe = false) (b : Board) :
    b.clock c p = if b.rst then b else ⟨true, State.resetWith c⟩ := by
  obtain ⟨rst, core⟩ := b
  cases rst <;> simp [Board.clock, hp, hw]

theorem Board.clock_hold (c : Config) {b : Board} (hb : b.rst = false) :
    b.clock c Pins.hold = ⟨true, State.resetWith c⟩ := by
  rw [Board.clock_of_rst_idle c rfl rfl, hb]
  exact if_neg Bool.false_ne_true

theorem Board.clock_of_rst_load (c : Config) {p : Pins} (hp : p.rst = true) (hw : p.loadWe = true) {b : Board}
    {held : State} (hheld : held = if b.rst then b.core else State.resetWith c) :
    b.clock c p = ⟨true, { held with mem := held.mem.write p.loadAddr.toNat p.loadData }⟩ := by
  subst hheld
  simp [Board.clock, hp, hw]

/-- Settles O14: holding `rst` resets, the Loader's pins then do what its writes do, and the launch state is Running, so it
steps once `rst` is released. -/
theorem bootThroughLoadPortReachesLaunch : Obligations.BootThroughLoadPortReachesLaunch := by
  intro c b image hb hlen
  obtain ⟨m, hload, hlaunch, hread⟩ := launch_of_fits c hlen
  obtain ⟨t, ht⟩ := (stepWith_next_iff c { State.resetWith c with mem := m }).2 rfl
  obtain ⟨ps, m', hps, hm', hboard⟩ | ⟨e, -, he⟩ := loadPins_cases c image (State.resetWith c) 0
  · obtain rfl : m' = m := Except.ok.inj (hm'.symm.trans hload)
    refine ⟨_, t, ps, hlaunch, fun a ha => ?_, hps, ?_, rfl, ht, Board.clock_of_next rfl ht⟩
    · rw [hread, List.getD_eq_default _ _ ha]
    · rw [List.foldl_cons, Board.clock_hold c hb, hboard]
  · cases he.symm.trans hload

/-- Settles O15: one case per level of `rst` and `load_we`; a load is one cell's write to the core that is held. -/
theorem hostChangesStateOnlyByResetAndLoad : Obligations.HostChangesStateOnlyByResetAndLoad := by
  intro c b p
  refine ⟨fun hp => ⟨fun t => Board.clock_of_next hp, Board.clock_of_terminal c hp⟩,
    fun hp hw => Board.clock_of_rst_idle c hp hw b, fun hp hw hm => ?_⟩
  obtain ⟨held, hheld⟩ : ∃ held, held = if b.rst then b.core else State.resetWith c := ⟨_, rfl⟩
  have hwf : held.mem.wf := by
    rw [hheld]; split
    exacts [hm, Memory.nil_wf]
  refine ⟨held, _, hheld, Board.clock_of_rst_load c hp hw hheld, ?_, fun a ha => ?_, rfl⟩
  · exact (Memory.read_write hwf _ _ _).trans (if_pos rfl)
  · exact (Memory.read_write hwf _ _ _).trans (if_neg ha)

theorem inspectMem_eq (s : State) (a : Int) :
    inspectMem s a = if 0 ≤ a ∧ a < 256 then some (s.mem.read a.toNat) else none := by
  simp only [inspectMem, addressOk_iff]

/-- Settles O16: status by status; the inspection port's range check is that of `MemRead`. -/
theorem statusOutputsAndExitCode : Obligations.StatusOutputsAndExitCode := by
  refine fun c s => ⟨fun hs => ?_, fun hs => ?_, fun r hs => ?_, rfl, inspectMem_eq s⟩
  · simp [statusPins, exitCode, hs]
  · simp [statusPins, exitCode, hs]
  · simp [inspectFaultRecord, statusPins, exitCode, hs, c.faultExitCode_ne_zero]

/-- Settles O24: a terminal core has no step, so `rst` alone changes it. -/
theorem terminalStatesAreLeftOnlyByReset : Obligations.TerminalStatesAreLeftOnlyByReset := by
  intro c b hb
  refine ⟨fun h => hb ((stepWith_next_iff c b.core).1 h), fun ps hps => ?_, fun hrst => ?_⟩
  · exact Board.core_foldl_clock_of_terminal c hps hb
  · exact ⟨Board.clock_hold c hrst, rfl⟩

/-- The last step of a run changes no memory: it is HLT's, or fault entry (R101, R206). -/
theorem stepWith_mem_of_terminal {c : Config} {s t : State} (h : stepWith c s = .next t) (ht : t.status ≠ .running) :
    t.mem = s.mem := by
  obtain ⟨hs, ⟨i, rest, -, hx⟩ | ⟨_, -, rfl⟩⟩ := stepWith_cases h
  · obtain heff | ⟨_, _, -, rfl⟩ := exec_cases hx
    · have hhlt : i = .hlt := by
        by_contra hi
        exact ht ((heff.status_eq.trans (if_neg hi)).trans hs)
      subst hhlt
      cases heff
      rfl
    · rfl
  · rfl

/-- Settles O25: the run's last step keeps memory, and what it leaves is a terminal core, which keeps its state. -/
theorem haltAndFaultsKeepMemory : Obligations.HaltAndFaultsKeepMemory := by
  intro c s t h ht
  have hmem := stepWith_mem_of_terminal h ht
  refine ⟨hmem, fun ps a hps h0 h256 => ?_, Board.clock_hold c rfl⟩
  rw [Board.core_foldl_clock_of_terminal c hps ht, inspectMem_eq, if_pos ⟨h0, h256⟩, hmem]

end Sys2Proof.Machine
end

section
/-! The executor under fuel (R236, R239) against reachability. -/

namespace Sys2Proof.Machine

theorem Reaches.head {c : Config} {s t u : State} (h : stepWith c s = .next t) (ht : Reaches c t u) : Reaches c s u := by
  induction ht with
  | refl => exact .tail (.refl s) h
  | tail _ hstep ih => exact .tail ih hstep

theorem runWith_of_terminal (c : Config) {s : State} (hs : s.status ≠ .running) (fuel : Nat) :
    runWith c fuel s = .ended s := by
  cases fuel with
  | zero => exact if_neg hs
  | succ fuel =>
    rw [runWith]
    cases h : stepWith c s with
    | next t => exact absurd h (stepWith_ne_next hs t)
    | fault | refused => rfl

/-- What the executor reports: an end in a reached terminal state, or out of fuel in a reached Running one. -/
theorem runWith_cases (c : Config) (fuel : Nat) (s : State) :
    ∃ t, Reaches c s t ∧ ((runWith c fuel s = .ended t ∧ t.status ≠ .running) ∨
      (runWith c fuel s = .outOfFuel t ∧ t.status = .running)) := by
  induction fuel generalizing s with
  | zero =>
    by_cases hs : s.status = .running
    · exact ⟨s, .refl s, .inr ⟨if_pos hs, hs⟩⟩
    · exact ⟨s, .refl s, .inl ⟨if_neg hs, hs⟩⟩
  | succ fuel ih =>
    by_cases hs : s.status = .running
    · obtain ⟨u, hu⟩ := (stepWith_next_iff c s).2 hs
      obtain ⟨t, hreach, hend⟩ := ih u
      rw [runWith_succ_of_next hu]
      exact ⟨t, hreach.head hu, hend⟩
    · exact ⟨s, .refl s, .inl ⟨runWith_of_terminal c hs _, hs⟩⟩

/-- A state reached in `k` steps is where the executor is once it has used `k` of its fuel. -/
theorem Reaches.exists_runWith_add {c : Config} {s t : State} (h : Reaches c s t) :
    ∃ k, ∀ fuel, runWith c (fuel + k) s = runWith c fuel t := by
  induction h with
  | refl => exact ⟨0, fun _ => rfl⟩
  | tail _ hstep ih =>
    obtain ⟨k, hk⟩ := ih
    refine ⟨k + 1, fun fuel => ?_⟩
    rw [← Nat.add_assoc, Nat.add_right_comm, hk, runWith_succ_of_next hstep]

/-- Settles O22: soundness by induction on the fuel, completeness by induction on the steps. -/
theorem fuelReportsWhatIsReached : Obligations.FuelReportsWhatIsReached := by
  refine fun c fuel s t => ⟨fun h => ?_, fun h => ?_, fun hreach ht => ?_⟩
  · obtain ⟨u, hu, ⟨hend, hterm⟩ | ⟨hend, -⟩⟩ := runWith_cases c fuel s
    · obtain rfl := RunEnd.ended.inj (hend.symm.trans h)
      exact ⟨hu, hterm⟩
    · cases hend.symm.trans h
  · obtain ⟨u, hu, ⟨hend, -⟩ | ⟨hend, hrun⟩⟩ := runWith_cases c fuel s
    · cases hend.symm.trans h
    · obtain rfl := RunEnd.outOfFuel.inj (hend.symm.trans h)
      exact ⟨hu, hrun⟩
  · obtain ⟨k, hk⟩ := hreach.exists_runWith_add
    exact ⟨0 + k, (hk 0).trans (runWith_of_terminal c ht 0)⟩

end Sys2Proof.Machine
end

section
/-! Faults of a step: the operand fetch (R74), the register checks (R203), and what fault entry records (R206). -/

namespace Sys2Proof.Machine

theorem fetchBytes_of_lt {s : State} (h : s.pc.toNat < 256) :
    fetchBytes s = s.mem.read s.pc.toNat :: bytesFrom s.mem 2 (s.pc.toNat + 1) :=
  bytesFrom_of_lt s.mem 2 h

/-- A row of the build too wide for where it stands raises OutOfBounds(memory, 256), whatever bytes are before the edge. -/
theorem stepRaises_of_operandFetch {c : Config} {s : State} {m : OpName} (hmap : m.inMap c = true)
    (hs : s.status = .running) (hpc : s.pc.toNat ≤ 255) (hop : s.mem.read s.pc.toNat = m.opcode)
    (hwide : 256 < s.pc.toNat + opcodeWidth m.opcode) :
    StepRaises c s .outOfBoundsMemory (some m.opcode) (some 256) := by
  have hwidth := opcodeWidth_opcode_le_three m
  have hlen := length_bytesFrom s.mem 2 (s.pc.toNat + 1)
  have hd : decode c (fetchBytes s) =
      .error (.missingOperand m.opcode ((bytesFrom s.mem 2 (s.pc.toNat + 1)).length + 1)) := by
    rw [fetchBytes_of_lt (Nat.lt_succ_of_le hpc), hop]
    exact decode_of_lt_opcodeWidth hmap (by omega)
  have haddr : (s.pc.toNat : Int) + ((bytesFrom s.mem 2 (s.pc.toNat + 1)).length + 1 : Nat) = 256 := by omega
  refine ⟨_, stepWith_of_reject hs hd, ?_⟩
  simp only [rejectRaise, State.enterFault_status, haddr]

/-- Settles O26: the bytes that exist are one too few at least, and the first missing one has address 256. -/
theorem operandFetchPastTopFaults : Obligations.OperandFetchPastTopFaults := by
  intro i c s hmap hs hpc hop hwide
  rw [length_encode] at hwide
  exact stepRaises_of_operandFetch hmap hs hpc hop hwide

theorem raises_of_ownFault {i : Instr} {s : State} {cause : Cause} {info : Int} (h : OwnFault i s cause info) :
    Raises i s cause (some info) :=
  ⟨_, exec_of_ownFault h, rfl⟩

/-- From a Running state, an instruction that ends Faulted took the fault of its own first check to fire. -/
theorem ownFault_of_exec_faulted {i : Instr} {s t : State} {r : FaultRecord} (hs : s.status = .running)
    (h : exec i s = .next t) (ht : t.status = .faulted r) :
    ∃ cause info, OwnFault i s cause info ∧ r = ⟨cause, s.pc, some i.name.opcode, some info⟩ := by
  obtain heff | ⟨cause, info, hown, rfl⟩ := exec_cases h
  · exact absurd ht (heff.status_ne_faulted hs r)
  · exact ⟨cause, info, hown, (Status.faulted.inj ht).symm⟩

/-- Settles O28: of an instruction's own checks the register check alone has this cause, and it comes before the others. -/
theorem registerFaultNamesFirstBadOperand : Obligations.RegisterFaultNamesFirstBadOperand := by
  intro i s t k hs h
  constructor
  · intro ht
    obtain ⟨cause, info, hown, hr⟩ := ownFault_of_exec_faulted hs h ht
    cases hr
    cases hown with
    | register _ _ b hb => exact ⟨b, hb, rfl⟩
  · rintro ⟨b, hb, rfl⟩
    rw [exec_of_ownFault (.register i s b hb)] at h
    cases h
    rfl

/-! ### Fault entry -/

theorem opcode_of_decode {c : Config} {s : State} {i : Instr} {rest : List Byte}
    (h : decode c (fetchBytes s) = .ok (i, rest)) :
    some i.name.opcode = if s.pc.toNat < 256 then some (s.mem.read s.pc.toNat) else none := by
  rw [← head?_fetchBytes, (decode_eq_ok_iff.1 h).1]
  rfl

/-- A rejected fetch records the byte at pc, none when there is none (R81, R206). -/
theorem opcode_of_reject {c : Config} {s : State} {e : Reject} (h : decode c (fetchBytes s) = .error e) :
    (rejectRaise s.pc.toNat e).1 = if s.pc.toNat < 256 then some (s.mem.read s.pc.toNat) else none := by
  rw [← head?_fetchBytes]
  obtain ⟨hbytes, rfl⟩ | ⟨op, rest, hbytes, rfl⟩ | ⟨m, rest, -, hbytes, -, rfl⟩ := decode_error_cases h <;>
    rw [hbytes] <;> rfl

/-- Settles O30: a step that ends Faulted is fault entry, by an own check of the instruction whose opcode stands at pc, or by
a rejected fetch. -/
theorem faultEntryIsPrecise : Obligations.FaultEntryIsPrecise := by
  intro c s t r h ht
  obtain ⟨i, rest, cause, info, hd, -, rfl⟩ | ⟨e, hd, rfl⟩ := stepWith_faulted_cases h ht
  · cases ht
    exact ⟨rfl, rfl, opcode_of_decode hd⟩
  · cases ht
    exact ⟨rfl, rfl, opcode_of_reject hd⟩

end Sys2Proof.Machine
end

section
/-! The complete list of causes of OutOfBounds memory (R202): the two fetches, and the bounds of the stack forms. -/

namespace Sys2Proof.Machine

theorem sp_setReg (s : State) (d : Fin 8) (v : Byte) : (s.setReg d v).sp = if d = spIndex then v else s.sp := by
  simp only [State.sp, State.setReg_reg, eq_comm (a := spIndex)]

/-- Which bound of a stack form is exceeded (R121, R122, R171), and the info that is recorded; the instruction lies within
memory, so CALL has no return address at pc 254 alone. -/
def StackBoundExceeded (i : Instr) (s : State) (info : Option Int) : Prop :=
  (∃ r : Fin 8, (i = .push (regByte r) ∨ (i = .call (regByte r) ∧ s.pc.toNat < 254)) ∧ s.sp.toNat = 0 ∧
    info = some (-1)) ∨
  (∃ r : Fin 8, i = .pop (regByte r) ∧ (if r = spIndex then s.mem.read s.sp.toNat else s.sp).toNat = 255 ∧
    info = some 256) ∨
  (i = .ret ∧ s.sp.toNat = 255 ∧ info = some 256) ∨
  (∃ r : Fin 8, i = .call (regByte r) ∧ s.pc.toNat = 254 ∧ info = some 256)

theorem stackBoundExceeded_of_ownFault {i : Instr} {s : State} {info : Int}
    (hfit : s.pc.toNat + (encode i).length ≤ 256) (h : OwnFault i s .outOfBoundsMemory info) :
    StackBoundExceeded i s (some info) := by
  cases h with
  | pushBound _ d hsp => exact .inl ⟨d, .inl rfl, hsp, rfl⟩
  | callBound _ d hpc hsp => exact .inl ⟨d, .inr ⟨rfl, hpc⟩, hsp, rfl⟩
  | popBound _ d hsp => rw [sp_setReg] at hsp; exact .inr (.inl ⟨d, rfl, hsp, rfl⟩)
  | retBound _ hsp => exact .inr (.inr (.inl ⟨rfl, hsp, rfl⟩))
  | returnAddress _ d hpc =>
    have htop : s.pc.toNat ≤ 254 := Nat.le_of_add_le_add_right hfit
    exact .inr (.inr (.inr ⟨d, rfl, by omega, rfl⟩))

theorem ownFault_of_stackBoundExceeded {i : Instr} {s : State} {info : Option Int} (h : StackBoundExceeded i s info) :
    ∃ k, OwnFault i s .outOfBoundsMemory k ∧ info = some k := by
  obtain ⟨d, rfl | ⟨rfl, hpc⟩, hsp, rfl⟩ | ⟨d, rfl, hsp, rfl⟩ | ⟨rfl, hsp, rfl⟩ | ⟨d, rfl, hpc, rfl⟩ := h
  · exact ⟨_, .pushBound s d hsp, rfl⟩
  · exact ⟨_, .callBound s d hpc hsp, rfl⟩
  · exact ⟨_, .popBound s d (by rwa [sp_setReg]), rfl⟩
  · exact ⟨_, .retBound s hsp, rfl⟩
  · exact ⟨_, .returnAddress s d hpc.ge, rfl⟩

/-! ### Each cause raises -/

theorem stepRaises_of_pc_256 (c : Config) {s : State} (hs : s.status = .running) (hpc : s.pc.toNat = 256) :
    StepRaises c s .outOfBoundsMemory none (some 256) := by
  have hd : decode c (fetchBytes s) = .error .noOpcode := by
    rw [fetchBytes, bytesFrom_of_ge _ _ hpc.ge, decode]
  refine ⟨_, stepWith_of_reject hs hd, ?_⟩
  simp only [rejectRaise, State.enterFault_status, hpc, Nat.cast_ofNat]

theorem stepRaises_of_ownFault {c : Config} {s : State} {i : Instr} {rest : List Byte} {cause : Cause} {info : Int}
    (hs : s.status = .running) (hd : decode c (fetchBytes s) = .ok (i, rest)) (h : OwnFault i s cause info) :
    StepRaises c s cause (some i.name.opcode) (some info) :=
  ⟨_, (stepWith_of_decode hs hd).trans (exec_of_ownFault h), rfl⟩

theorem StepRaises.status_eq {c : Config} {s t : State} {cause : Cause} {op : Option Byte} {info : Option Int}
    (hr : StepRaises c s cause op info) (h : stepWith c s = .next t) : t.status = .faulted ⟨cause, s.pc, op, info⟩ := by
  obtain ⟨u, hu, hstatus⟩ := hr
  obtain rfl := Host.Outcome.next.inj (hu.symm.trans h)
  exact hstatus

/-- Settles O27: a step that ends Faulted is fault entry for an own check or a rejected fetch, and of these OutOfBounds
memory is raised by the bounds and fetches listed; each of them does raise it. -/
theorem memoryFaultCausesComplete : Obligations.MemoryFaultCausesComplete := by
  intro c s t opc info hpc h
  have hs := (stepWith_cases h).1
  constructor
  · intro ht
    obtain ⟨i, rest, cause, k, hd, hown, rfl⟩ | ⟨e, hd, rfl⟩ := stepWith_faulted_cases h ht
    · cases ht
      exact .inr (.inr ⟨i, rest, hd, rfl, stackBoundExceeded_of_ownFault (pc_add_length_le_of_decode hd) hown⟩)
    · obtain ⟨h256, hr⟩ | ⟨op, hr⟩ | ⟨m, hmap, h255, hread, hwide, hr⟩ := rejectRaise_cases hd hpc
      all_goals rw [hr] at ht
      · cases ht
        exact .inl ⟨h256, rfl, rfl⟩
      · cases ht
      · cases ht
        exact .inr (.inl ⟨m, hmap, h255, hread, hwide, rfl, rfl⟩)
  · rintro (⟨h256, rfl, rfl⟩ | ⟨m, hmap, h255, hread, hwide, rfl, rfl⟩ | ⟨i, rest, hd, rfl, hbound⟩)
    · exact (stepRaises_of_pc_256 c hs h256).status_eq h
    · exact (stepRaises_of_operandFetch hmap hs h255 hread hwide).status_eq h
    · obtain ⟨k, hown, rfl⟩ := ownFault_of_stackBoundExceeded hbound
      exact (stepRaises_of_ownFault hs hd hown).status_eq h

end Sys2Proof.Machine
end

section
/-! The shapes the instruction rules share: the one- and two-register forms (R73, R76), and a register result. -/

namespace Sys2Proof.Machine

theorem raises_of_bad_first {i : Instr} {r : Byte} {rest : List Byte} (hreg : i.regOperands = r :: rest)
    (s : State) (hr : 8 ≤ r.toNat) : Raises i s .outOfBoundsRegister (some (r.toNat : Int)) :=
  raises_of_ownFault (.register i s r (by rw [hreg, List.find?_cons, isRegIndex_eq_false hr, Bool.not_false]))

theorem raises_of_bad_second {i : Instr} {rA rB : Byte} {rest : List Byte} (hreg : i.regOperands = rA :: rB :: rest)
    (s : State) (hA : rA.toNat < 8) (hB : 8 ≤ rB.toNat) : Raises i s .outOfBoundsRegister (some (rB.toNat : Int)) :=
  raises_of_ownFault (.register i s rB (by
    rw [hreg, List.find?_cons, isRegIndex_eq_true hA, Bool.not_true, List.find?_cons, isRegIndex_eq_false hB,
      Bool.not_false]))

theorem oneRegisterForm_of {mk : Byte → Instr} {op : Byte} (henc : ∀ r, encode (mk r) = [op, r])
    (hreg : ∀ r, (mk r).regOperands = [r]) : OneRegisterForm mk op :=
  ⟨henc, fun r => operandFetchPastTopFaults (mk r), fun r s => raises_of_bad_first (hreg r) s⟩

theorem twoRegisterForm_of {mk : Byte → Byte → Instr} {op : Byte} (henc : ∀ rA rB, encode (mk rA rB) = [op, rA, rB])
    (hreg : ∀ rA rB, (mk rA rB).regOperands = [rA, rB]) : TwoRegisterForm mk op :=
  ⟨henc, fun rA rB => operandFetchPastTopFaults (mk rA rB), fun rA rB s => raises_of_bad_first (hreg rA rB) s,
    fun rA rB s => raises_of_bad_second (hreg rA rB) s⟩

/-- Only register `d` differs after a write to it. -/
theorem sameRegsBut_setReg (s : State) (d : Fin 8) (v : Byte) : SameRegsBut s (s.setReg d v) [d] :=
  fun _ hk => State.setReg_reg_ne s (List.ne_of_not_mem_cons hk) v

/-- A register write and the advance, the end of every form that has one result register. -/
theorem registerResult_setReg_advance {s : State} (hpc : s.pc.toNat ≤ 256) (d : Fin 8) (v : Byte) {w : Nat}
    (hw : w ≤ 3) : RegisterResult s ((s.setReg d v).advance w) d v.toNat w := by
  have hv : ((s.setReg d v).advance w).reg d = v := State.setReg_reg_same s d v
  refine ⟨congrArg _ hv, sameRegsBut_setReg s d v, advance_pc_toNat ?_, rfl, rfl, rfl, rfl⟩
  rw [State.setReg_pc]; omega

end Sys2Proof.Machine
end

section
/-! The system and data-movement instructions (40_system_and_data.md). -/

namespace Sys2Proof.Machine

/-- Settles O31: NOP's effect is the advance by 1. -/
theorem nopOnlyAdvances : Obligations.NopOnlyAdvances := by
  refine ⟨rfl, fun s hpc => ⟨_, execNop_eq s, advance_pc_toNat (by omega), fun _ _ => rfl, rfl, rfl, rfl, rfl⟩⟩

/-- Settles O32: HLT's effect is the status Halted. -/
theorem hltHaltsInPlace : Obligations.HltHaltsInPlace :=
  ⟨rfl, fun s => ⟨_, execHlt_eq s, rfl, rfl, fun _ _ => rfl, rfl, rfl, rfl⟩⟩

/-- Settles O33: LDI's effect is a register result; its one register operand is checked like any other. -/
theorem ldiLoadsImmediate : Obligations.LdiLoadsImmediate := by
  refine ⟨fun _ _ => rfl, fun r imm => operandFetchPastTopFaults _, fun r imm s => raises_of_bad_first rfl s, ?_⟩
  intro d imm s hpc
  exact ⟨_, exec_of_effect (.ldi s d imm), registerResult_setReg_advance hpc d imm le_rfl⟩

theorem outPort_of_out_eq {s t : State} (h : t.out = s.out) : outPort s t = none := by
  rw [outPort, h, List.drop_length]; rfl

theorem outPort_of_out_append {s t : State} {v : Byte} (h : t.out = s.out ++ [v]) : outPort s t = some v := by
  rw [outPort, h, List.drop_left]; rfl

theorem exec_prn_of_ge {r : Byte} {s t : State} (hr : 8 ≤ r.toNat) (h : exec (.prn r) s = .next t) :
    t.out = s.out := by
  obtain hout | ⟨d, hi, -⟩ := exec_out_cases h
  · exact hout
  · cases hi
    rw [regByte_toNat] at hr
    omega

/-- Settles O34: PRN's effect appends the register's byte, which is what the port shows; a faulting PRN appends nothing. -/
theorem prnEmitsRegister : Obligations.PrnEmitsRegister := by
  refine ⟨oneRegisterForm_of (fun _ => rfl) fun _ => rfl, fun r s t hr h => ?_, fun d s hpc => ?_⟩
  · have hout := exec_prn_of_ge hr h
    exact ⟨hout, outPort_of_out_eq hout⟩
  · refine ⟨_, exec_of_effect (.prn s d), rfl, outPort_of_out_append rfl, advance_pc_toNat ?_,
      fun _ _ => rfl, rfl, rfl, rfl⟩
    rw [State.emit_pc]; omega

end Sys2Proof.Machine
end

section
/-! The ALU instructions (42_alu.md): the whole-number meaning of each operation, and one rule for the shared form (R140). -/

namespace Sys2Proof.Machine

theorem wrap8_toNat (n : Int) : (wrap8 n).toNat = (n % 256).toNat :=
  BitVec.toNat_ofInt n

theorem aluAdd_toNat (a b : Byte) : (aluAdd a b).toNat = (a.toNat + b.toNat) % 256 := by
  rw [aluAdd, wrap8_toNat]; omega

theorem aluMul_toNat (a b : Byte) : (aluMul a b).toNat = a.toNat * b.toNat % 256 := by
  rw [aluMul, wrap8_toNat, ← Nat.cast_mul]; omega

theorem aluSub_toNat (a b : Byte) : (aluSub a b).toNat = (a.toNat + 256 - b.toNat) % 256 := by
  have hb := b.isLt
  rw [aluSub, wrap8_toNat]; omega

theorem aluNot_toNat (a : Byte) : (aluNot a).toNat = 255 - a.toNat := by
  have ha := a.isLt
  rw [aluNot, wrap8_toNat]; omega

/-- The rule of a two-register ALU instruction, from its effect and the whole-number meaning of its operation. -/
theorem aluRule_of {mk : Byte → Byte → Instr} {op : Byte} {f : Nat → Nat → Nat} {g : Byte → Byte → Byte}
    (hform : TwoRegisterForm mk op)
    (heff : ∀ s a b, Effect (mk (regByte a) (regByte b)) s ((s.setReg a (g (s.reg a) (s.reg b))).advance 3))
    (hg : ∀ x y, (g x y).toNat = f x.toNat y.toNat) : AluRule mk op f := by
  refine ⟨hform, fun a b s hpc => ⟨_, exec_of_effect (heff s a b), ?_⟩⟩
  rw [← hg]
  exact registerResult_setReg_advance hpc a _ le_rfl

/-- Settles O37: the shared form, with the sum wrapped to a byte. -/
theorem addWrapsModulo256 : Obligations.AddWrapsModulo256 :=
  aluRule_of (twoRegisterForm_of (fun _ _ => rfl) fun _ _ => rfl) .add aluAdd_toNat

/-- Settles O38: the shared form, with the product wrapped to a byte. -/
theorem mulKeepsLowByte : Obligations.MulKeepsLowByte :=
  aluRule_of (twoRegisterForm_of (fun _ _ => rfl) fun _ _ => rfl) .mul aluMul_toNat

/-- Settles O39: the shared form, with the difference wrapped to a byte. -/
theorem subWrapsModulo256 : Obligations.SubWrapsModulo256 :=
  aluRule_of (twoRegisterForm_of (fun _ _ => rfl) fun _ _ => rfl) .sub aluSub_toNat

/-- Settles O40: the shared form, with the bytes' AND. -/
theorem andIsBitwise : Obligations.AndIsBitwise :=
  aluRule_of (twoRegisterForm_of (fun _ _ => rfl) fun _ _ => rfl) .and BitVec.toNat_and

/-- Settles O41: the shared form, with the bytes' OR. -/
theorem orIsBitwise : Obligations.OrIsBitwise :=
  aluRule_of (twoRegisterForm_of (fun _ _ => rfl) fun _ _ => rfl) .or BitVec.toNat_or

/-- Settles O42: the shared form, with the bytes' exclusive OR. -/
theorem xorIsBitwise : Obligations.XorIsBitwise :=
  aluRule_of (twoRegisterForm_of (fun _ _ => rfl) fun _ _ => rfl) .xor BitVec.toNat_xor

/-- Settles O43: NOT's effect is a register result. -/
theorem notComplements : Obligations.NotComplements := by
  refine ⟨oneRegisterForm_of (fun _ => rfl) fun _ => rfl, fun d s hpc => ⟨_, exec_of_effect (.not s d), ?_⟩⟩
  rw [← aluNot_toNat]
  exact registerResult_setReg_advance hpc d _ (Nat.le_succ 2)

/-- Exactly one of the three flags a comparison writes is true (R144). -/
theorem count_compareFlags (a b : Byte) :
    [(compareFlags a b).e, (compareFlags a b).l, (compareFlags a b).g].count true = 1 := by
  rcases Nat.lt_trichotomy a.toNat b.toNat with h | h | h
  · simp [compareFlags, h, h.ne, h.not_gt]
  · simp [compareFlags, h]
  · simp [compareFlags, h, h.ne', h.not_gt]

/-- Settles O44: CMP's effect writes what the comparison gives to the flags, and advances. -/
theorem cmpSetsExactlyOneFlag : Obligations.CmpSetsExactlyOneFlag := by
  refine ⟨twoRegisterForm_of (fun _ _ => rfl) fun _ _ => rfl, fun a b s hpc => ?_⟩
  refine ⟨_, exec_of_effect (.cmp s a b), ?_, decide_eq_true_iff, decide_eq_true_iff, count_compareFlags _ _,
    fun _ _ => rfl, advance_pc_toNat ?_, rfl, rfl, rfl⟩
  · exact beq_iff_eq.trans BitVec.toNat_inj
  · rw [State.setFlags_pc]; omega

end Sys2Proof.Machine
end

section
/-! The stack instructions (41_stack.md). -/

namespace Sys2Proof.Machine

/-- The byte PUSH stores: its register, read after SP was decremented (R123, D12). -/
def State.pushOperand (s : State) (d : Fin 8) : Byte := (s.setReg spIndex (BitVec.ofNat 8 (s.sp.toNat - 1))).reg d

theorem State.pushOperand_eq (s : State) (d : Fin 8) :
    s.pushOperand d = if d = spIndex then BitVec.ofNat 8 (s.sp.toNat - 1) else s.reg d :=
  State.setReg_reg s spIndex d _

theorem State.pushed_sameRegsBut (s : State) (v : Byte) : SameRegsBut s (s.pushed v) [spIndex] :=
  sameRegsBut_setReg s spIndex _

/-- The byte a push stores is read at SP - 1 (R121). -/
theorem State.read_pushed_same {s : State} (hm : s.mem.wf) (hsp : 0 < s.sp.toNat) (v : Byte) :
    (s.pushed v).mem.read (s.sp.toNat - 1) = v := by
  rw [State.pushed_mem v hsp, Memory.read_write hm, if_pos rfl]

theorem sameBytesBut_of_mem_eq_write {s t : State} (hm : s.mem.wf) {a : Nat} {v : Byte} (h : t.mem = s.mem.write a v) :
    SameBytesBut s t a := fun b hb => by
  rw [h, Memory.read_write hm, if_neg hb]

theorem State.pushed_sameBytesBut {s : State} (hm : s.mem.wf) (hsp : 0 < s.sp.toNat) (v : Byte) :
    SameBytesBut s (s.pushed v) (s.sp.toNat - 1) :=
  sameBytesBut_of_mem_eq_write hm (State.pushed_mem v hsp)

theorem State.read_pushed_sp {s : State} (hm : s.mem.wf) (hsp : 0 < s.sp.toNat) (v : Byte) :
    (s.pushed v).mem.read (s.pushed v).sp.toNat = v := by
  rw [State.pushed_sp_toNat v hsp, State.read_pushed_same hm hsp]

/-- Settles O35: at SP 0 the bound fires; otherwise PUSH's effect is the push of the register and the advance. -/
theorem pushStoresBelowSp : Obligations.PushStoresBelowSp := by
  refine ⟨oneRegisterForm_of (fun _ => rfl) fun _ => rfl, fun d s hsp => raises_of_ownFault (.pushBound s d hsp), ?_⟩
  intro d s hm hpc hsp
  refine ⟨_, exec_of_effect (.push s d hsp), State.pushed_sp_toNat (s.pushOperand d) hsp, ?_,
    State.pushed_sameBytesBut hm hsp (s.pushOperand d), State.pushed_sameRegsBut s (s.pushOperand d),
    advance_pc_toNat ?_, rfl, rfl, rfl⟩
  · rw [State.advance_mem, State.advance_sp, State.pushed_sp, ← State.pushOperand_eq]
    exact State.read_pushed_same hm hsp _
  · rw [State.pushed_pc]; omega

/-- The new SP of POP and RET (R122). -/
theorem setReg_sp_succ_toNat {s : State} (h : s.sp.toNat < 255) :
    (s.setReg spIndex (BitVec.ofNat 8 (s.sp.toNat + 1))).sp.toNat = s.sp.toNat + 1 := by
  rw [State.setReg_spIndex_sp, BitVec.toNat_ofNat]; omega

/-- Settles O36: POP increments the popped byte for R7 and SP otherwise, and faults where that would be 256. -/
theorem popLoadsAtSp : Obligations.PopLoadsAtSp := by
  refine ⟨oneRegisterForm_of (fun _ => rfl) fun _ => rfl, fun d s hsp => ?_, fun d s hpc hsp => ?_⟩
  · rw [← sp_setReg] at hsp
    exact raises_of_ownFault (.popBound s d hsp)
  · rw [← sp_setReg] at hsp ⊢
    refine ⟨_, exec_of_effect (.pop s _ d rfl hsp), setReg_sp_succ_toNat hsp, fun hd => ?_, fun k hk => ?_,
      advance_pc_toNat ?_, rfl, rfl, rfl, rfl⟩
    · rw [State.advance_reg, State.setReg_reg_ne _ hd, State.setReg_reg_same]
    · have hkd := List.ne_of_not_mem_cons hk
      have hksp := List.ne_of_not_mem_cons (List.not_mem_of_not_mem_cons hk)
      rw [State.advance_reg, State.setReg_reg_ne _ hksp, State.setReg_reg_ne _ hkd]
    · rw [State.setReg_pc, State.setReg_pc]; omega

/-- After PUSH of a register, POP's own write to that register leaves SP decremented, for R7 too (D12). -/
theorem State.sp_setReg_pushed (s : State) (d : Fin 8) :
    ((s.pushed (s.pushOperand d)).setReg d (s.pushOperand d)).sp = BitVec.ofNat 8 (s.sp.toNat - 1) := by
  rw [sp_setReg, State.pushed_sp, State.pushOperand_eq]
  split <;> rfl

/-- POP's writes to its register and to SP undo PUSH's in the registers. -/
theorem State.sameRegsBut_pop_pushed {s : State} (hsp : 0 < s.sp.toNat) (d : Fin 8) :
    SameRegsBut s (((s.pushed (s.pushOperand d)).setReg d (s.pushOperand d)).setReg spIndex
      (BitVec.ofNat 8 (s.sp.toNat - 1 + 1))) [] := by
  intro k _
  rw [Nat.sub_add_cancel hsp, BitVec.ofNat_toNat, BitVec.setWidth_eq, State.setReg_reg]
  split
  next hk => rw [hk]; rfl
  next hk =>
    rw [State.setReg_reg, State.pushed_reg, if_neg hk]
    split
    next hkd => subst hkd; rw [State.pushOperand_eq, if_neg hk]
    next => rfl

/-- Settles O59: POP reads the byte PUSH stored, and increments the decremented SP, whichever the register. -/
theorem pushPopRoundTrip : Obligations.PushPopRoundTrip := by
  intro r s t hm hs h ht
  cases effect_of_running h ht with
  | push _ d hsp =>
    have hread := State.read_pushed_sp hm hsp (s.pushOperand d)
    have hpop : ((s.pushed (s.pushOperand d)).setReg d (s.pushOperand d)).sp.toNat = s.sp.toNat - 1 := by
      have := s.sp.isLt
      rw [State.sp_setReg_pushed, BitVec.toNat_ofNat]; omega
    have hlt : ((s.pushed (s.pushOperand d)).setReg d (s.pushOperand d)).sp.toNat < 255 := by
      have := s.sp.isLt; omega
    have hregs := State.sameRegsBut_pop_pushed hsp d
    rw [← hpop] at hregs
    refine ⟨_, exec_of_effect (.pop _ _ d (congrArg _ hread.symm) hlt), hs, hregs⟩

end Sys2Proof.Machine
end

section
/-! The control-transfer instructions (43_control_transfer.md). -/

namespace Sys2Proof.Machine

/-- Settles O45: the return address is checked before the push bound; CALL's effect is the push of the return address and
the jump to the register, read after the push. -/
theorem callPushesReturnAddress : Obligations.CallPushesReturnAddress := by
  refine ⟨oneRegisterForm_of (fun _ => rfl) fun _ => rfl, fun d s hpc => raises_of_ownFault (.returnAddress s d hpc),
    fun d s hpc hsp => raises_of_ownFault (.callBound s d hpc hsp), fun d s hm hpc hsp => ?_⟩
  refine ⟨_, exec_of_effect (.call s d hpc hsp), State.pushed_sp_toNat (BitVec.ofNat 8 (s.pc.toNat + 2)) hsp, ?_,
    State.pushed_sameBytesBut hm hsp (BitVec.ofNat 8 (s.pc.toNat + 2)), ?_,
    State.pushed_sameRegsBut s (BitVec.ofNat 8 (s.pc.toNat + 2)), rfl, rfl, rfl⟩
  · rw [State.jump_mem, State.read_pushed_same hm hsp, BitVec.toNat_ofNat]; omega
  · rw [jump_pc_toNat, State.jump_sp, State.pushed_reg, State.pushed_sp]

theorem exec_ret_of_lt {s : State} (hsp : s.sp.toNat < 255) :
    ∃ t, exec .ret s = .next t ∧ t.pc.toNat = (s.mem.read s.sp.toNat).toNat ∧ t.sp.toNat = s.sp.toNat + 1 ∧
      SameRegsBut s t [spIndex] ∧ t.flags = s.flags ∧ t.status = s.status ∧ t.mem = s.mem ∧ t.out = s.out :=
  ⟨_, exec_of_effect (.ret s hsp), jump_pc_toNat _ _, setReg_sp_succ_toNat hsp, sameRegsBut_setReg s _ _, rfl, rfl, rfl,
    rfl⟩

/-- Settles O46: RET's effect pops the byte at SP into pc; after a CALL that byte is the return address. -/
theorem retPopsPc : Obligations.RetPopsPc := by
  refine ⟨rfl, fun s hsp => raises_of_ownFault (.retBound s hsp), fun s => exec_ret_of_lt, ?_⟩
  intro r s t u hm _ h ht hsp hread
  cases effect_of_running h ht with
  | call _ d hpc hpos =>
    have husp : u.sp.toNat = s.sp.toNat - 1 := by rw [hsp, State.jump_sp, State.pushed_sp_toNat _ hpos]
    have hbyte : u.mem.read u.sp.toNat = BitVec.ofNat 8 (s.pc.toNat + 2) := by
      rw [hsp, hread, State.jump_mem, State.jump_sp, State.read_pushed_sp hm hpos]
    obtain ⟨v, hv, hvpc, hvsp, -⟩ := exec_ret_of_lt (s := u) (by have := s.sp.isLt; omega)
    refine ⟨v, hv, ?_, BitVec.eq_of_toNat_eq ?_⟩
    · rw [hvpc, hbyte, BitVec.toNat_ofNat]; omega
    · rw [hvsp, husp]; omega

/-- Settles O47: JMP's effect is the jump, and a jump to pc changes nothing. -/
theorem jmpSetsPc : Obligations.JmpSetsPc := by
  refine ⟨oneRegisterForm_of (fun _ => rfl) fun _ => rfl, fun d s => ?_, fun d s hself => ?_⟩
  · exact ⟨_, exec_of_effect (.jmp s d), jump_pc_toNat s _, fun _ _ => rfl, rfl, rfl, rfl, rfl⟩
  · rw [exec_of_effect (.jmp s d), State.jump_of_eq_pc hself]

/-- Settles O48: JEQ's effect is the jump or the advance by 2, as `E` says. -/
theorem jeqTakenIffEqual : Obligations.JeqTakenIffEqual := by
  refine ⟨oneRegisterForm_of (fun _ => rfl) fun _ => rfl, fun d s hpc => ⟨_, exec_of_effect (.jeq s d), ?_⟩⟩
  cases s.flags.e with
  | true => exact ⟨jump_pc_toNat s _, fun _ _ => rfl, rfl, rfl, rfl, rfl⟩
  | false => exact ⟨advance_pc_toNat (by omega), fun _ _ => rfl, rfl, rfl, rfl, rfl⟩

/-- Settles O49: JNE's effect is the advance by 2 or the jump, as `E` says. -/
theorem jneTakenIffNotEqual : Obligations.JneTakenIffNotEqual := by
  refine ⟨oneRegisterForm_of (fun _ => rfl) fun _ => rfl, fun d s hpc => ⟨_, exec_of_effect (.jne s d), ?_⟩⟩
  cases s.flags.e with
  | true => exact ⟨advance_pc_toNat (by omega), fun _ _ => rfl, rfl, rfl, rfl, rfl⟩
  | false => exact ⟨jump_pc_toNat s _, fun _ _ => rfl, rfl, rfl, rfl, rfl⟩

end Sys2Proof.Machine
end

section
/-! Frames (10_state.md section 3, 20_memory.md section 5): what each form leaves unchanged, a fault included. -/

namespace Sys2Proof.Machine

theorem regByte_injective : Function.Injective regByte := fun a b h =>
  Fin.ext (by rw [← regByte_toNat a, h, regByte_toNat])

theorem exec_sameRegsBut {i : Instr} {s t : State} (h : exec i s = .next t) {ds : List (Fin 8)}
    (hw : i.writtenRegs = ds.map regByte) : SameRegsBut s t ds := fun k hk =>
  exec_reg_eq h (by rwa [hw, List.mem_map_of_injective regByte_injective])

theorem exec_flags_eq {i : Instr} {s t : State} (h : exec i s = .next t) (hi : i.name ≠ .cmp) : t.flags = s.flags := by
  obtain hflags | ⟨a, b, rfl, -⟩ := exec_flags_cases h
  · exact hflags
  · exact absurd rfl hi

theorem exec_out_eq {i : Instr} {s t : State} (h : exec i s = .next t) (hi : i.name ≠ .prn) : t.out = s.out := by
  obtain hout | ⟨d, rfl, -⟩ := exec_out_cases h
  · exact hout
  · exact absurd rfl hi

theorem exec_sameBytes {i : Instr} {s t : State} (h : exec i s = .next t) (hpush : i.name ≠ .push)
    (hcall : i.name ≠ .call) : SameBytes s t := by
  obtain hmem | ⟨⟨r, rfl | rfl⟩, -, -⟩ := exec_mem_cases h
  · exact fun a => by rw [hmem]
  · exact absurd rfl hpush
  · exact absurd rfl hcall

theorem exec_status_of_ne_hlt {i : Instr} {s t : State} (h : exec i s = .next t) (hi : i.name ≠ .hlt) :
    t.status = s.status ∨ ∃ r, t.status = .faulted r := by
  obtain hstatus | hfault | ⟨rfl, -⟩ := exec_status_cases h
  · exact .inl hstatus
  · exact .inr hfault
  · exact absurd rfl hi

/-- Settles O50: all eight forms write their first operand's register, and none is of a row that writes anything else. -/
theorem registerFormsFrame : Obligations.RegisterFormsFrame := by
  intro i d rB imm s t hi h
  have hname : i.name ∈ [.ldi, .add, .mul, .sub, .and, .or, .xor, .not] := List.mem_map_of_mem (f := Instr.name) hi
  have hwritten : i.writtenRegs = [regByte d] :=
    List.eq_of_mem_replicate (n := 8) (List.mem_map_of_mem (f := Instr.writtenRegs) hi)
  have hne {m : OpName} (hm : m ∉ [.ldi, .add, .mul, .sub, .and, .or, .xor, .not]) : i.name ≠ m :=
    fun e => hm (e ▸ hname)
  exact ⟨exec_sameRegsBut h (ds := [d]) hwritten, exec_flags_eq h (hne (by decide)), exec_out_eq h (hne (by decide)),
    exec_sameBytes h (hne (by decide)) (hne (by decide)), exec_status_of_ne_hlt h (hne (by decide))⟩

theorem exec_sameBytesBut {i : Instr} {s t : State} (hm : s.mem.wf) (h : exec i s = .next t) :
    SameBytesBut s t (s.sp.toNat - 1) := by
  obtain hmem | ⟨-, -, v, hmem⟩ := exec_mem_cases h
  · exact fun b _ => by rw [hmem]
  · exact sameBytesBut_of_mem_eq_write hm hmem

theorem exec_sameBytes_of_sp_zero {i : Instr} {s t : State} (hsp : s.sp.toNat = 0) (h : exec i s = .next t) :
    SameBytes s t := by
  obtain hmem | ⟨-, hpos, -⟩ := exec_mem_cases h
  · exact fun a => by rw [hmem]
  · omega

theorem sp_of_decSp {s s₁ : State} (h : s.decSp = .ok s₁) : s₁.sp.toNat = s.sp.toNat - 1 := by
  obtain ⟨-, hd⟩ | ⟨-, hd⟩ := decSp_cases s
  · cases hd.symm.trans h
    have := s.sp.isLt
    rw [State.setReg_spIndex_sp, BitVec.toNat_ofNat]; omega
  · cases hd.symm.trans h

theorem sp_of_decSp_error {s : State} {e : Raise} (h : s.decSp = .error e) : s.sp.toNat = 0 := by
  obtain ⟨-, hd⟩ | ⟨hsp, -⟩ := decSp_cases s
  · cases hd.symm.trans h
  · exact hsp

theorem push_call_frame {i : Instr} {s t : State} (hw : i.writtenRegs = [regByte spIndex])
    (hname : i.name = .push ∨ i.name = .call) (hm : s.mem.wf) (h : exec i s = .next t) :
    SameRegsBut s t [spIndex] ∧ t.flags = s.flags ∧ t.out = s.out ∧
    (t.status = s.status ∨ ∃ f, t.status = .faulted f) ∧
    (∀ s₁, s.decSp = .ok s₁ → SameBytesBut s t s₁.sp.toNat) ∧ (∀ e, s.decSp = .error e → SameBytes s t) := by
  have hne {m : OpName} (hpush : m ≠ .push) (hcall : m ≠ .call) : i.name ≠ m := by
    rintro rfl
    exact hname.elim hpush hcall
  refine ⟨exec_sameRegsBut h (ds := [spIndex]) hw, exec_flags_eq h (hne nofun nofun), exec_out_eq h (hne nofun nofun),
    exec_status_of_ne_hlt h (hne nofun nofun), fun s₁ hs₁ => ?_, fun e he => ?_⟩
  · rw [sp_of_decSp hs₁]
    exact exec_sameBytesBut hm h
  · exact exec_sameBytes_of_sp_zero (sp_of_decSp_error he) h

/-- Settles O51: PUSH and CALL store at the decremented SP alone, and POP and RET store nothing. -/
theorem stackFormsFrame : Obligations.StackFormsFrame := by
  refine ⟨?_, fun d s t h => ?_, fun s t h => ?_⟩
  · rintro i r s t (rfl | rfl) hm h
    · exact push_call_frame rfl (.inl rfl) hm h
    · exact push_call_frame rfl (.inr rfl) hm h
  · exact ⟨exec_sameRegsBut h (ds := [d, spIndex]) rfl, exec_flags_eq h nofun, exec_out_eq h nofun,
      exec_sameBytes h nofun nofun, exec_status_of_ne_hlt h nofun⟩
  · exact ⟨exec_sameRegsBut h (ds := [spIndex]) rfl, exec_flags_eq h nofun, exec_out_eq h nofun,
      exec_sameBytes h nofun nofun, exec_status_of_ne_hlt h nofun⟩

/-- Settles O52: none of the seven forms writes a register or stores; of them CMP alone is of the row that writes flags, and
PRN alone of the row that writes the output. -/
theorem otherFormsFrame : Obligations.OtherFormsFrame := by
  intro i r rB s t hi h
  have hname : i.name ∈ [.nop, .hlt, .prn, .cmp, .jmp, .jeq, .jne] := List.mem_map_of_mem (f := Instr.name) hi
  have hwritten : i.writtenRegs = [] :=
    List.eq_of_mem_replicate (n := 7) (List.mem_map_of_mem (f := Instr.writtenRegs) hi)
  have hne {m : OpName} (hm : m ∉ [.nop, .hlt, .prn, .cmp, .jmp, .jeq, .jne]) : i.name ≠ m :=
    fun e => hm (e ▸ hname)
  have honly : ∀ j ∈ [Instr.nop, .hlt, .prn r, .cmp r rB, .jmp r, .jeq r, .jne r],
      (j.name = .cmp → j = .cmp r rB) ∧ (j.name = .prn → j = .prn r) := by
    simp [Instr.name]
  refine ⟨exec_sameRegsBut h (ds := []) hwritten, exec_sameBytes h (hne (by decide)) (hne (by decide)),
    fun hcmp => exec_flags_eq h (mt (honly i hi).1 hcmp), fun hprn => exec_out_eq h (mt (honly i hi).2 hprn),
    exec_status_cases h⟩

/-- Settles O53: of all effects CMP's alone writes the flags. -/
theorem flagsWrittenOnlyByCmp : Obligations.FlagsWrittenOnlyByCmp :=
  fun _ _ _ h hne => (exec_flags_cases h).resolve_left hne

theorem stepWith_out_grows {c : Config} {s t : State} (h : stepWith c s = .next t) : s.out <+: t.out := by
  obtain ⟨-, ⟨i, rest, -, hx⟩ | ⟨e, -, rfl⟩⟩ := stepWith_cases h
  · obtain hout | ⟨d, -, hout⟩ := exec_out_cases hx
    · rw [hout]
    · rw [hout]; exact ⟨_, rfl⟩
  · exact ⟨[], List.append_nil _⟩

/-- Settles O57: of all effects PRN's alone appends to the output, and no step takes a byte from it. -/
theorem outputOnlyGrowsByPrn : Obligations.OutputOnlyGrowsByPrn := by
  refine ⟨fun _ _ _ => exec_out_cases, fun c s t h => ?_⟩
  refine h.preserves (P := fun u => s.out <+: u.out) (fun _ _ hu hstep => ?_) ⟨[], List.append_nil _⟩
  exact hu.trans (stepWith_out_grows hstep)

end Sys2Proof.Machine
end

section
/-! What an instruction reads: registers, the byte at SP, `E`, and for CALL pc. From two states that agree on these it makes
the same change. -/

namespace Sys2Proof.Machine

/-- `s'` agrees with `s` on everything the instruction `i` can read. -/
structure AgreesOnReads (i : Instr) (s s' : State) : Prop where
  regs : s'.regs = s.regs
  byteAtSp : s'.mem.read s.sp.toNat = s.mem.read s.sp.toNat
  e : s'.flags.e = s.flags.e
  pc : i.name = .call → s'.pc = s.pc

/-- `t` and `t'` come from `s` and `s'` by the same change: registers are alike, every other piece of state is alike where it
was before, and flags or memory are kept in both or written alike in both. -/
structure SameChange (s s' t t' : State) : Prop where
  regs : t'.regs = t.regs
  pc : s'.pc = s.pc → t'.pc = t.pc
  flags : (t.flags = s.flags ∧ t'.flags = s'.flags) ∨ t'.flags = t.flags
  status : s'.pc = s.pc → s'.status = s.status → t'.status = t.status
  mem : (t.mem = s.mem ∧ t'.mem = s'.mem) ∨ (0 < s.sp.toNat ∧
    ∃ v, t.mem = s.mem.write (s.sp.toNat - 1) v ∧ t'.mem = s'.mem.write (s.sp.toNat - 1) v)
  out : s'.out = s.out → t'.out = t.out

theorem reg_eq_of_regs {s s' : State} (h : s'.regs = s.regs) (k : Fin 8) : s'.reg k = s.reg k :=
  congrArg (fun r : Vector Byte 8 => r.get k) h

theorem sp_eq_of_regs {s s' : State} (h : s'.regs = s.regs) : s'.sp = s.sp :=
  reg_eq_of_regs h spIndex

/-! ### Each update makes the same change -/

theorem SameChange.refl {s s' : State} (h : s'.regs = s.regs) : SameChange s s' s s' :=
  ⟨h, id, .inl ⟨rfl, rfl⟩, fun _ => id, .inl ⟨rfl, rfl⟩, id⟩

section
variable {s s' t t' : State} (h : SameChange s s' t t')
include h

theorem SameChange.setReg (d : Fin 8) {v v' : Byte} (hv : v' = v) : SameChange s s' (t.setReg d v) (t'.setReg d v') := by
  subst hv
  exact { h with regs := congrArg (fun r : Vector Byte 8 => r.set d.val v' d.isLt) h.regs }

theorem SameChange.advance (w : Nat) : SameChange s s' (t.advance w) (t'.advance w) :=
  { h with pc := fun hpc => congrArg (· + BitVec.ofNat 9 w) (h.pc hpc) }

theorem SameChange.jump {b b' : Byte} (hb : b' = b) : SameChange s s' (t.jump b) (t'.jump b') := by
  subst hb
  exact { h with pc := fun _ => rfl }

theorem SameChange.emit {v v' : Byte} (hv : v' = v) : SameChange s s' (t.emit v) (t'.emit v') := by
  subst hv
  exact { h with out := fun hout => congrArg (· ++ [v']) (h.out hout) }

theorem SameChange.setFlags {f f' : Flags} (hf : f' = f) : SameChange s s' (t.setFlags f) (t'.setFlags f') :=
  { h with flags := .inr hf }

theorem SameChange.halt : SameChange s s' t.halt t'.halt :=
  { h with status := fun _ _ => rfl }

theorem SameChange.enterFault (op : Option Byte) (e : Raise) :
    SameChange s s' (t.enterFault op e) (t'.enterFault op e) :=
  { h with status := fun hpc _ => by rw [State.enterFault_status, State.enterFault_status, h.pc hpc] }

end

theorem SameChange.pushed {s s' : State} (h : s'.regs = s.regs) (hsp : 0 < s.sp.toNat) {v v' : Byte} (hv : v' = v) :
    SameChange s s' (s.pushed v) (s'.pushed v') := by
  subst hv
  have hsp' := sp_eq_of_regs h
  have hregs : (s'.pushed v').regs = (s.pushed v').regs :=
    ((SameChange.refl h).setReg spIndex (by rw [hsp'] : _ = BitVec.ofNat 8 (s.sp.toNat - 1))).regs
  refine { SameChange.refl h with regs := hregs, mem := .inr ⟨hsp, v', State.pushed_mem v' hsp, ?_⟩ }
  rw [State.pushed_mem v' (by rwa [hsp']), hsp']

/-! ### Every instruction makes the same change -/

theorem OwnFault.of_agreesOnReads {i : Instr} {s s' : State} {cause : Cause} {info : Int} (ha : AgreesOnReads i s s')
    (h : OwnFault i s cause info) : OwnFault i s' cause info := by
  have hsp := sp_eq_of_regs ha.regs
  cases h with
  | register _ _ b hb => exact .register i s' b hb
  | pushBound _ d h => exact .pushBound s' d (by rwa [hsp])
  | popBound _ d h => exact .popBound s' d (by rwa [sp_setReg, hsp, ha.byteAtSp, ← sp_setReg])
  | returnAddress _ d h => exact .returnAddress s' d (by rwa [ha.pc rfl])
  | callBound _ d hpc h => exact .callBound s' d (by rwa [ha.pc rfl]) (by rwa [hsp])
  | retBound _ h => exact .retBound s' (by rwa [hsp])

theorem Effect.exists_sameChange {i : Instr} {s s' t : State} (ha : AgreesOnReads i s s') (h : Effect i s t) :
    ∃ t', Effect i s' t' ∧ SameChange s s' t t' := by
  have hsame := SameChange.refl ha.regs
  have hreg := reg_eq_of_regs ha.regs
  have hsp := sp_eq_of_regs ha.regs
  have halu (d a b : Fin 8) (f : Byte → Byte → Byte) :
      SameChange s s' ((s.setReg d (f (s.reg a) (s.reg b))).advance 3)
        ((s'.setReg d (f (s'.reg a) (s'.reg b))).advance 3) :=
    (hsame.setReg d (by rw [hreg, hreg])).advance 3
  cases h with
  | nop => exact ⟨_, .nop s', hsame.advance 1⟩
  | hlt => exact ⟨_, .hlt s', hsame.halt⟩
  | ldi _ d imm => exact ⟨_, .ldi s' d imm, (hsame.setReg d rfl).advance 3⟩
  | prn _ d => exact ⟨_, .prn s' d, (hsame.emit (hreg d)).advance 2⟩
  | push _ d hp =>
    have hv : s'.pushOperand d = s.pushOperand d := by rw [State.pushOperand_eq, State.pushOperand_eq, hsp, hreg]
    exact ⟨_, .push s' d (by rwa [hsp]), (SameChange.pushed ha.regs hp hv).advance 2⟩
  | pop _ s₁ d h₁ hp =>
    subst h₁
    have hpopped := hsame.setReg d (by rw [hsp, ha.byteAtSp] : s'.mem.read s'.sp.toNat = s.mem.read s.sp.toNat)
    have hsp₁ := sp_eq_of_regs hpopped.regs
    exact ⟨_, .pop s' _ d rfl (by rwa [hsp₁]), (hpopped.setReg spIndex (by rw [hsp₁])).advance 2⟩
  | call _ d hpc hp =>
    have hpushed := SameChange.pushed ha.regs hp (by rw [ha.pc rfl] :
      BitVec.ofNat 8 (s'.pc.toNat + 2) = BitVec.ofNat 8 (s.pc.toNat + 2))
    exact ⟨_, .call s' d (by rwa [ha.pc rfl]) (by rwa [hsp]), hpushed.jump (reg_eq_of_regs hpushed.regs d)⟩
  | ret _ hp =>
    exact ⟨_, .ret s' (by rwa [hsp]), (hsame.setReg spIndex (by rw [hsp])).jump (by rw [hsp, ha.byteAtSp])⟩
  | jmp _ d => exact ⟨_, .jmp s' d, hsame.jump (hreg d)⟩
  | jeq _ d =>
    refine ⟨_, .jeq s' d, ?_⟩
    rw [ha.e]
    split
    exacts [hsame.jump (hreg d), hsame.advance 2]
  | jne _ d =>
    refine ⟨_, .jne s' d, ?_⟩
    rw [ha.e]
    split
    exacts [hsame.advance 2, hsame.jump (hreg d)]
  | cmp _ a b => exact ⟨_, .cmp s' a b, (hsame.setFlags (by rw [hreg, hreg])).advance 3⟩
  | not _ d => exact ⟨_, .not s' d, (hsame.setReg d (by rw [hreg])).advance 2⟩
  | add _ a b => exact ⟨_, .add s' a b, halu a a b aluAdd⟩
  | mul _ a b => exact ⟨_, .mul s' a b, halu a a b aluMul⟩
  | sub _ a b => exact ⟨_, .sub s' a b, halu a a b aluSub⟩
  | and _ a b => exact ⟨_, .and s' a b, halu a a b aluAnd⟩
  | or _ a b => exact ⟨_, .or s' a b, halu a a b aluOr⟩
  | xor _ a b => exact ⟨_, .xor s' a b, halu a a b aluXor⟩

theorem exec_sameChange {i : Instr} {s s' : State} (ha : AgreesOnReads i s s') :
    ∃ t t', exec i s = .next t ∧ exec i s' = .next t' ∧ SameChange s s' t t' := by
  obtain ⟨t, ht⟩ := exec_next i s
  obtain heff | ⟨cause, info, hown, hf⟩ := exec_cases ht
  · obtain ⟨t', heff', hsame⟩ := heff.exists_sameChange ha
    exact ⟨t, t', ht, exec_of_effect heff', hsame⟩
  · have hsame := (SameChange.refl ha.regs).enterFault (some i.name.opcode) ⟨cause, some info⟩
    exact ⟨_, _, exec_of_ownFault hown, exec_of_ownFault (hown.of_agreesOnReads ha), hsame⟩

theorem SameChange.mem_eq {s s' t t' : State} (h : SameChange s s' t t') (hm : s'.mem = s.mem) : t'.mem = t.mem := by
  obtain ⟨ht, ht'⟩ | ⟨-, v, ht, ht'⟩ := h.mem <;> rw [ht, ht', hm]

theorem SameChange.flags_eq {s s' t t' : State} (h : SameChange s s' t t') (hf : s'.flags = s.flags) :
    t'.flags = t.flags := by
  obtain ⟨ht, ht'⟩ | heq := h.flags
  · rw [ht, ht', hf]
  · exact heq

/-- Settles O54: what an instruction reads does not include `L` or `G`. -/
theorem lessAndGreaterFlagsAreNeverRead : Obligations.LessAndGreaterFlagsAreNeverRead := by
  intro i s l g
  have hreads : AgreesOnReads i s { s with flags := ⟨s.flags.e, l, g⟩ } := ⟨rfl, rfl, rfl, fun _ => rfl⟩
  obtain ⟨t, t', ht, ht', hsame⟩ := exec_sameChange hreads
  refine ⟨t, t', ht, ht', ?_, hsame.flags⟩
  exact State.ext_reg (reg_eq_of_regs hsame.regs) (hsame.pc rfl) rfl (hsame.status rfl rfl) (hsame.mem_eq rfl)
    (hsame.out rfl)

/-- Settles O55: what an instruction other than CALL reads does not include pc. -/
theorem pcIsDataOnlyForCall : Obligations.PcIsDataOnlyForCall := by
  intro i s p hcall
  have hreads : AgreesOnReads i s { s with pc := p } := by
    refine ⟨rfl, rfl, rfl, fun hname => ?_⟩
    cases i with
    | call r => exact absurd rfl (hcall r)
    | _ => cases hname
  obtain ⟨t, t', ht, ht', hsame⟩ := exec_sameChange hreads
  exact ⟨t, t', ht, ht', hsame.regs, hsame.flags_eq rfl, hsame.mem_eq rfl, hsame.out rfl⟩

/-- Settles O56: of memory an instruction reads the byte at SP alone, and the one byte it may store goes to SP - 1. -/
theorem dataAccessesOnlyAtSp : Obligations.DataAccessesOnlyAtSp := by
  intro i s m hread
  have hreads : AgreesOnReads i s { s with mem := m } := ⟨rfl, hread, rfl, fun _ => rfl⟩
  obtain ⟨t, t', ht, ht', hsame⟩ := exec_sameChange hreads
  refine ⟨t, t', ht, ht', ?_, fun hs hm => ?_⟩
  · exact State.ext_reg (reg_eq_of_regs hsame.regs) (hsame.pc rfl) (hsame.flags_eq rfl) (hsame.status rfl rfl) rfl
      (hsame.out rfl)
  · obtain ⟨hkept, hkept'⟩ | ⟨hsp, v, hstore, hstore'⟩ := hsame.mem
    · exact .inl ⟨fun a => by rw [hkept], fun a => by rw [hkept']⟩
    · refine .inr ⟨hsp, sameBytesBut_of_mem_eq_write hs hstore, sameBytesBut_of_mem_eq_write hm hstore', ?_⟩
      rw [hstore, hstore', Memory.read_write hs, Memory.read_write hm, if_pos rfl, if_pos rfl]

end Sys2Proof.Machine
end

section
/-! Fetch is coherent with the stack's stores (20_memory.md section 5). -/

namespace Sys2Proof.Machine

theorem getElem?_fetchBytes_of_eq_byte {s : State} {b : Byte} {k : Nat} (hk : k < 3) (hpc : s.pc.toNat + k = b.toNat) :
    (fetchBytes s)[k]? = some (s.mem.read b.toNat) := by
  have := b.isLt
  rw [getElem?_fetchBytes, if_pos ⟨hk, by omega⟩, hpc]

theorem push_of_running {d : Fin 8} {s t : State} (h : exec (.push (regByte d)) s = .next t) (ht : t.status = .running) :
    0 < s.sp.toNat ∧ t = (s.pushed (s.pushOperand d)).advance 2 := by
  generalize hr : regByte d = r at h
  cases effect_of_running h ht with
  | push _ e hsp =>
    obtain rfl := regByte_injective hr
    exact ⟨hsp, rfl⟩

theorem call_of_running {r : Byte} {s t : State} (h : exec (.call r) s = .next t) (ht : t.status = .running) :
    0 < s.sp.toNat ∧ ∃ b, t = (s.pushed (BitVec.ofNat 8 (s.pc.toNat + 2))).jump b := by
  cases effect_of_running h ht with
  | call _ d _ hsp => exact ⟨hsp, _, rfl⟩

/-- Settles O58: a fetch that reaches the new SP reads the byte the push stored there. -/
theorem fetchSeesStackStores : Obligations.FetchSeesStackStores := by
  intro d s t u k hm _ ht hmem hk hpc
  rw [getElem?_fetchBytes_of_eq_byte hk hpc, hmem]
  refine ⟨fun h => ?_, fun h => ?_⟩
  · obtain ⟨hsp, rfl⟩ := push_of_running h ht
    rw [State.advance_mem, State.advance_sp, State.read_pushed_sp hm hsp, State.pushOperand_eq, State.pushed_sp]
  · obtain ⟨hsp, b, rfl⟩ := call_of_running h ht
    rw [State.jump_mem, State.jump_sp, State.read_pushed_sp hm hsp]

end Sys2Proof.Machine
end
